-- ==== Sys2Proof/Word.lean ====
section
/-! DEFINITION. The plain words of the block: every value is an unsigned integer of a stated width (R10). -/

namespace Sys2Proof

/-- An 8-bit value: a logical byte, a transmitted byte, a character code, a row or column (R10, R26, R105). -/
abbrev Byte := BitVec 8

/-- A 4-bit data nibble, bits 7:4 of a transmitted byte (R51, R80). -/
abbrev Nibble := BitVec 4

/-- A 7-bit address: the bus target (R22) or a DDRAM address (R62). -/
abbrev Addr7 := BitVec 7

end Sys2Proof
end

