-- ==== Sys2Proof/Config.lean ====
section
/-! DEFINITION. What an implementation fixes (the parameters of R8) and the free values. The parameters are held in State, so
that every statement ranges over them; their defaults are in Machine/Defaults.lean. -/

namespace Sys2Proof

/-- `BASE[0..3]`: the DDRAM address of the first character of each row (R8, R21). -/
structure RowBases where
  row0 : Addr7
  row1 : Addr7
  row2 : Addr7
  row3 : Addr7
deriving DecidableEq, Repr

/-- The parameters of R8 that are not operands of CONSTRUCT. None of them is ever written by the block. -/
structure Params where
  /-- RS_BIT, register-select (R84). -/
  rsBit : Byte
  /-- RW_BIT, read/write (R85). -/
  rwBit : Byte
  /-- EN_BIT, enable (R83). -/
  enBit : Byte
  /-- BL_BIT, backlight (R82). -/
  blBit : Byte
  /-- RESET_BYTE (R90). -/
  resetByte : Byte
  /-- MODE4_BYTE (R91). -/
  mode4Byte : Byte
  /-- CMD_FUNCTION_SET (R92). -/
  functionSet : Byte
  /-- CMD_ENTRY_MODE (R93). -/
  entryMode : Byte
  /-- CMD_CLEAR (R94). -/
  clear : Byte
  /-- CMD_HOME (R95). -/
  home : Byte
  /-- CMD_DISPLAY_ON (R96). -/
  displayOn : Byte
  /-- CMD_SET_DDRAM (R97). -/
  setDdram : Byte
  /-- CMD_SHIFT_LEFT (R98). -/
  shiftLeft : Byte
  /-- CMD_SHIFT_RIGHT (R99). -/
  shiftRight : Byte
  /-- SPACE_CODE (R172). -/
  spaceCode : Byte
  /-- T_EN (R154). Every duration is a number of microseconds (R240, R241). -/
  tEn : Nat
  /-- T_INIT1 (R123). -/
  tInit1 : Nat
  /-- T_INIT2 (R123, open). -/
  tInit2 : Nat
  /-- T_INIT3 (R123). -/
  tInit3 : Nat
  /-- T_CLEAR (R127). -/
  tClear : Nat
  /-- T_SCROLL (R175). -/
  tScroll : Nat
  /-- T_LED (R210). -/
  tLed : Nat
  /-- N_LED, how many on/off pairs FLASH_LED makes (R210). -/
  nLed : Nat
  /-- BASE[0..3], the row table (R8, R21, R61). -/
  base : RowBases
  /-- LEN_MAX, the longest text PRINT accepts (R8, U3); `none` is its default, `COLS + 255` (R32, D13). -/
  lenMax : Option Nat
  /-- INIT_SINGLE_NIBBLE: the four reset-phase bytes travel as one nibble each (R124, R133). -/
  initSingleNibble : Bool
  /-- LED_PIN (R23, open). -/
  ledPin : Byte
  /-- The platform's default bus, used by the zero-argument CONSTRUCT (R24, open). -/
  defaultBus : Byte
  /-- I2C_BIT_RATE (R120, open). -/
  bitRate : Nat
deriving DecidableEq, Repr

/-- FREE VALUE. What a bus write returns when `State.replies` lists nothing more (R13: "free at every call"). -/
opaque Config.freeReturn : Nat → Int

/-- FREE VALUE. What an element of the write buffer holds after CONSTRUCT (R39, U8). -/
opaque Config.freeCell : Nat → Byte

/-- FREE VALUE. The LED pin's level after CONSTRUCT (R39, U9). -/
opaque Config.freeLevel : Nat → Bool

end Sys2Proof
end

