-- ==== Sys2Proof/Syntax.lean ====
section
/-! DEFINITION. The instructions: one constructor per row of spec/opcode_table.json, in the table's order. "Instruction"
means a host operation, a logical byte or a transmitted byte (R2, R80, R81, R100). -/

namespace Sys2Proof

/-- The second argument of `Frame` (R14, R140). -/
inductive Mode where
  | command
  | character
deriving DecidableEq, Repr

/-- The six operands of CONSTRUCT (R120). `address`, `rows` and `columns` are as the host gives them: R9 is checked when
the operation runs. -/
structure ConstructArgs where
  bus     : Byte
  dataPin : Byte
  clkPin  : Byte
  address : Byte
  rows    : Byte
  columns : Byte
deriving DecidableEq, Repr

/-- One constructor per row of the opcode table. -/
inductive Instr where
  /- Format HOSTOP: what the host asks for (R100). -/
  /-- CONSTRUCT with six operands, or `none`: the zero-argument form (R102, R120). -/
  | construct (args : Option ConstructArgs)
  /-- INIT (R122). -/
  | init
  /-- PRINT(len, text); `len` is the text's length (R170). -/
  | print (text : List Byte)
  /-- MOVE_CURSOR(row, col) (R190). -/
  | moveCursor (row col : Byte)
  /-- SHIFT_LEFT (R200). -/
  | shiftLeft
  /-- SHIFT_RIGHT (R201). -/
  | shiftRight
  /-- FLASH_LED (R210). -/
  | flashLed
  /-- Selector 7, reserved (R106). -/
  | reserved7
  /- Format LOG8: one logical byte given to the framer (R81). -/
  /-- RESET_BYTE (R90). -/
  | resetByte
  /-- MODE4_BYTE (R91). -/
  | mode4Byte
  /-- Function-Set (R92). -/
  | cmdFunctionSet
  /-- Entry-Mode-Set (R93). -/
  | cmdEntryMode
  /-- Clear-Display (R94). -/
  | cmdClear
  /-- Return-Home (R95). -/
  | cmdHome
  /-- Display-Control: display on, cursor off, blink off (R96). -/
  | cmdDisplayOn
  /-- Set-DDRAM-Address with its 7-bit address (R97). -/
  | cmdSetDdram (address : Addr7)
  /-- Display_Shift_Left (R98). -/
  | cmdShiftLeft
  /-- Display_Shift_Right (R99). -/
  | cmdShiftRight
  /-- A character code, sent in mode Character (R105). -/
  | character (code : Byte)
  /- Format BUS8: one transmitted byte (R80, R87). -/
  /-- High-phase byte, mode Command (R140). -/
  | busHighCommand (data : Nibble)
  /-- High-phase byte, mode Character (R140). -/
  | busHighCharacter (data : Nibble)
  /-- Low-phase byte (R142). -/
  | busLowPhase (data : Nibble)
  /-- The backlight-only byte of INIT step 8 (R128). -/
  | busBacklightOnly
deriving DecidableEq, Repr

end Sys2Proof
end

