-- ==== Sys2Proof/Machine/Defaults.lean ====
section
/-! DEFINITION. The default of every parameter (R8) and the constants of the block. -/

namespace Sys2Proof.Machine

/-- The defaults of R8. The control-line bits, the command bytes and the space code are PRESUMED (general knowledge of the
display family, GK1 to GK3; log entries 3 and 4); `tInit2` is a DESIGN CHOICE (D6; log entry 5); `ledPin`, `defaultBus` and
`bitRate` have no value in the spec (log entry 6). -/
def defaultParams : Params where
  rsBit := 0x01#8
  rwBit := 0x02#8
  enBit := 0x04#8
  blBit := 0x08#8
  resetByte := 0x03#8
  mode4Byte := 0x02#8
  functionSet := 0x28#8
  entryMode := 0x06#8
  clear := 0x01#8
  home := 0x02#8
  displayOn := 0x0C#8
  setDdram := 0x80#8
  shiftLeft := 0x18#8
  shiftRight := 0x1C#8
  spaceCode := 0x20#8
  tEn := 600
  tInit1 := 5000
  tInit2 := 150
  tInit3 := 150
  tClear := 2000
  tScroll := 500000
  tLed := 50000
  nLed := 10
  base := ⟨0x00#7, 0x40#7, 0x14#7, 0x54#7⟩
  lenMax := none
  initSingleNibble := false
  ledPin := 0x00#8
  defaultBus := 0x00#8
  bitRate := 100000

/-- `BASE[row]` (R21, R61). A row above 3 is never looked up (R9, R190). -/
def baseOf (base : RowBases) (row : Nat) : Addr7 :=
  match row with
  | 0 => base.row0
  | 1 => base.row1
  | 2 => base.row2
  | _ => base.row3

/-- The operands of the zero-argument CONSTRUCT (R24, R102). -/
def defaultArgs (p : Params) : ConstructArgs where
  bus := p.defaultBus
  dataPin := 0x04#8
  clkPin := 0x05#8
  address := 0x27#8
  rows := 0x02#8
  columns := 0x10#8

/-- `LEN_MAX`, the longest text PRINT accepts on `cols` columns: the parameter (R8, U3), by default `COLS + 255` (R32, D13). -/
def lenMax (p : Params) (cols : Byte) : Nat := p.lenMax.getD (cols.toNat + 255)

end Sys2Proof.Machine
end

