-- ==== Sys2Proof/WellFormed.lean ====
section
/-! DEFINITION. Well-formed instructions: those that have an encoding. Every operand but the text has a fixed width in its
type; the text's length must fit the 16 bits a request gives it (R170, R100). Whether the block accepts a text (LEN_MAX) or
a configuration (R9) is not a matter of form: the operation itself checks it. -/

namespace Sys2Proof

/-- The longest text a request can carry: a 16-bit length. -/
def Instr.maxTextLength : Nat := 0xFFFF

/-- Does the instruction have an encoding? -/
def Instr.wellFormed : Instr → Bool
  | .construct _ => true
  | .init => true
  | .print text => decide (text.length ≤ Instr.maxTextLength)
  | .moveCursor _ _ => true
  | .shiftLeft => true
  | .shiftRight => true
  | .flashLed => true
  | .reserved7 => true
  | .resetByte => true
  | .mode4Byte => true
  | .cmdFunctionSet => true
  | .cmdEntryMode => true
  | .cmdClear => true
  | .cmdHome => true
  | .cmdDisplayOn => true
  | .cmdSetDdram _ => true
  | .cmdShiftLeft => true
  | .cmdShiftRight => true
  | .character _ => true
  | .busHighCommand _ => true
  | .busHighCharacter _ => true
  | .busLowPhase _ => true
  | .busBacklightOnly => true

/-- The instruction has an encoding. -/
abbrev WellFormed (i : Instr) : Prop := i.wellFormed = true

end Sys2Proof
end

