-- ==== Sys2Proof/Decode.lean ====
section
/-! DEFINITION. The decoder, then the encoder. The three formats of the table share words (0x02 is PRINT, MODE4_BYTE, CMD_HOME
and a character code), so a word is read together with the place it is presented at: the mode of a logical byte is not one of
its bits (R81), MODE4_BYTE and CMD_HOME have one default (R95), the backlight-only byte has the bits of a low-phase byte (R87).

The control-line bits (R86, D3) and the command bytes (R8, D4) are parameters, so both take them as an argument: nothing here
names a value of theirs. The words of the opcode table are those of the default parameters. -/

namespace Sys2Proof

/-- Where a word is presented. -/
inductive Port where
  /-- The host's request (format HOSTOP, R100). -/
  | hostOp
  /-- A reset-phase byte of INIT steps 1 to 4 (format LOG8, R90, R91, R124). -/
  | resetPhase
  /-- A logical byte in mode Command (format LOG8, R81). -/
  | command
  /-- A logical byte in mode Character (format LOG8, R81, R105). -/
  | character
  /-- A transmitted byte of an enable pulse (format BUS8, R87, R151). -/
  | pulse
  /-- A transmitted byte outside every pulse (format BUS8, R128). -/
  | bare
deriving DecidableEq, Repr

/-- Why a byte string is no encoding. -/
inductive DecodeError where
  /-- There is no byte at all. -/
  | noWord
  /-- The selector byte of a request is above 7: a selector has 3 bits (R100). -/
  | selectorTooWide
  /-- A request ends before its operands do. -/
  | truncatedOperands
  /-- Bytes are left over after the instruction. -/
  | trailingBytes
  /-- CONSTRUCT's form byte is neither 0 (no operands) nor 1 (six operands). -/
  | noSuchForm
  /-- A logical byte on the reset-phase port that is neither RESET_BYTE nor MODE4_BYTE (R90, R91). -/
  | noResetByte
  /-- A logical byte on the command port that is no command of R92 to R99 (R108). -/
  | noCommand
  /-- A byte on the pulse port that has none of the shapes of R87 (R107). -/
  | noPulseByte
  /-- A byte on the bare port other than the backlight-only byte (R87, R128). -/
  | noBareByte
deriving DecidableEq, Repr

/-- A decoded instruction or the name of what is wrong. -/
abbrev Decoded := Except DecodeError Instr

/-- An instruction that takes no operand bytes. -/
def decodeBare (i : Instr) : List Byte → Decoded
  | [] => .ok i
  | _ :: _ => .error .trailingBytes

/-- CONSTRUCT's operands: a form byte, then nothing (form 0) or six bytes (form 1). -/
def decodeConstruct : List Byte → Decoded
  | [] => .error .truncatedOperands
  | form :: rest =>
    if form = 0x00#8 then decodeBare (.construct none) rest
    else if form = 0x01#8 then
      match rest with
      | [bus, dataPin, clkPin, address, rows, columns] =>
        .ok (.construct (some ⟨bus, dataPin, clkPin, address, rows, columns⟩))
      | _ :: _ :: _ :: _ :: _ :: _ :: _ :: _ => .error .trailingBytes
      | _ => .error .truncatedOperands
    else .error .noSuchForm

/-- PRINT's operands: the length in two bytes, the lower one first, then the codes. -/
def decodePrint : List Byte → Decoded
  | lo :: hi :: text =>
    if text.length < lo.toNat + 256 * hi.toNat then .error .truncatedOperands
    else if lo.toNat + 256 * hi.toNat < text.length then .error .trailingBytes
    else .ok (.print text)
  | _ => .error .truncatedOperands

/-- MOVE_CURSOR's operands: the row, then the column. -/
def decodeMoveCursor : List Byte → Decoded
  | [row, col] => .ok (.moveCursor row col)
  | _ :: _ :: _ :: _ => .error .trailingBytes
  | _ => .error .truncatedOperands

/-- A host request: the selector of R100 in a byte of its own, then the operands. -/
def decodeHostOp (sel : Byte) (ops : List Byte) : Decoded :=
  if sel = 0x00#8 then decodeConstruct ops
  else if sel = 0x01#8 then decodeBare .init ops
  else if sel = 0x02#8 then decodePrint ops
  else if sel = 0x03#8 then decodeMoveCursor ops
  else if sel = 0x04#8 then decodeBare .shiftLeft ops
  else if sel = 0x05#8 then decodeBare .shiftRight ops
  else if sel = 0x06#8 then decodeBare .flashLed ops
  else if sel = 0x07#8 then decodeBare .reserved7 ops
  else .error .selectorTooWide

/-- A reset-phase byte (R90, R91). -/
def decodeResetPhase (p : Params) (b : Byte) : Decoded :=
  if b = p.resetByte then .ok .resetByte
  else if b = p.mode4Byte then .ok .mode4Byte
  else .error .noResetByte

/-- The Set-DDRAM-Address command for an address in bits 6:0 (R97). -/
def setDdramWord (p : Params) (address : Addr7) : Byte := p.setDdram ||| address.setWidth 8

/-- Is the byte a Set-DDRAM-Address command for the address in its bits 6:0? (R97) -/
def isSetDdramWord (p : Params) (b : Byte) : Bool := b = setDdramWord p (b.extractLsb' 0 7)

/-- A command byte (R92 to R99). -/
def decodeCommand (p : Params) (b : Byte) : Decoded :=
  if b = p.functionSet then .ok .cmdFunctionSet
  else if b = p.entryMode then .ok .cmdEntryMode
  else if b = p.clear then .ok .cmdClear
  else if b = p.home then .ok .cmdHome
  else if b = p.displayOn then .ok .cmdDisplayOn
  else if b = p.shiftLeft then .ok .cmdShiftLeft
  else if b = p.shiftRight then .ok .cmdShiftRight
  else if isSetDdramWord p b then .ok (.cmdSetDdram (b.extractLsb' 0 7))
  else .error .noCommand

/-- A transmitted byte: the data in bits 7:4, OR'd with control lines (R80). -/
def busWord (data : Nibble) (lines : Byte) : Byte := (data ++ 0x0#4) ||| lines

/-- A byte of an enable pulse, by the shapes of R87: backlight and enable, the same with register-select, backlight alone. -/
def decodePulse (p : Params) (b : Byte) : Decoded :=
  if b = busWord (b.extractLsb' 4 4) (p.blBit ||| p.enBit) then .ok (.busHighCommand (b.extractLsb' 4 4))
  else if b = busWord (b.extractLsb' 4 4) (p.blBit ||| p.enBit ||| p.rsBit) then .ok (.busHighCharacter (b.extractLsb' 4 4))
  else if b = busWord (b.extractLsb' 4 4) p.blBit then .ok (.busLowPhase (b.extractLsb' 4 4))
  else .error .noPulseByte

/-- A byte outside every pulse (R128). -/
def decodeBareByte (p : Params) (b : Byte) : Decoded :=
  if b = p.blBit then .ok .busBacklightOnly else .error .noBareByte

/-- Exactly one byte, read by `f`. -/
def decodeOneByte (f : Byte → Decoded) (b : Byte) : List Byte → Decoded
  | [] => f b
  | _ :: _ => .error .trailingBytes

/-- The decoder: total on any bytes at any place. -/
def decode (p : Params) (port : Port) : List Byte → Decoded
  | [] => .error .noWord
  | b :: rest =>
    match port with
    | .hostOp => decodeHostOp b rest
    | .resetPhase => decodeOneByte (decodeResetPhase p) b rest
    | .command => decodeOneByte (decodeCommand p) b rest
    | .character => decodeOneByte (fun code => .ok (.character code)) b rest
    | .pulse => decodeOneByte (decodePulse p) b rest
    | .bare => decodeOneByte (decodeBareByte p) b rest

/-- The place an instruction's word is presented at. -/
def Instr.port : Instr → Port
  | .construct _ => .hostOp
  | .init => .hostOp
  | .print _ => .hostOp
  | .moveCursor _ _ => .hostOp
  | .shiftLeft => .hostOp
  | .shiftRight => .hostOp
  | .flashLed => .hostOp
  | .reserved7 => .hostOp
  | .resetByte => .resetPhase
  | .mode4Byte => .resetPhase
  | .cmdFunctionSet => .command
  | .cmdEntryMode => .command
  | .cmdClear => .command
  | .cmdHome => .command
  | .cmdDisplayOn => .command
  | .cmdSetDdram _ => .command
  | .cmdShiftLeft => .command
  | .cmdShiftRight => .command
  | .character _ => .character
  | .busHighCommand _ => .pulse
  | .busHighCharacter _ => .pulse
  | .busLowPhase _ => .pulse
  | .busBacklightOnly => .bare

/-- The operand bytes of CONSTRUCT. -/
def encodeConstruct : Option ConstructArgs → List Byte
  | none => [0x00#8]
  | some a => [0x01#8, a.bus, a.dataPin, a.clkPin, a.address, a.rows, a.columns]

/-- The encoder: the words of a well-formed instruction, from the rules the opcode table's rows name. -/
def encode (p : Params) : Instr → List Byte
  | .construct args => 0x00#8 :: encodeConstruct args
  | .init => [0x01#8]
  | .print text =>
    0x02#8 :: BitVec.ofNat 8 text.length :: BitVec.ofNat 8 (text.length / 256) :: text
  | .moveCursor row col => [0x03#8, row, col]
  | .shiftLeft => [0x04#8]
  | .shiftRight => [0x05#8]
  | .flashLed => [0x06#8]
  | .reserved7 => [0x07#8]
  | .resetByte => [p.resetByte]
  | .mode4Byte => [p.mode4Byte]
  | .cmdFunctionSet => [p.functionSet]
  | .cmdEntryMode => [p.entryMode]
  | .cmdClear => [p.clear]
  | .cmdHome => [p.home]
  | .cmdDisplayOn => [p.displayOn]
  | .cmdSetDdram address => [setDdramWord p address]
  | .cmdShiftLeft => [p.shiftLeft]
  | .cmdShiftRight => [p.shiftRight]
  | .character code => [code]
  | .busHighCommand data => [busWord data (p.blBit ||| p.enBit)]
  | .busHighCharacter data => [busWord data (p.blBit ||| p.enBit ||| p.rsBit)]
  | .busLowPhase data => [busWord data p.blBit]
  | .busBacklightOnly => [p.blBit]

/-- DESIGN CHOICE (log entry 12): the place a word is taken to be presented at when nothing but the word is known. The rows of
the opcode table that match the word, with the values the table is written for (log entries 3 and 4), are tried with the most
fixed bits first, and in the table's order among equals. -/
def tablePort (b : Byte) : Port :=
  if b.toNat < 8 then .hostOp
  else if b = 0x28#8 ∨ b = 0x0C#8 ∨ b = 0x18#8 ∨ b = 0x1C#8 then .command
  else if b = 0x08#8 then .bare
  else if b.extractLsb' 0 4 = 0xC#4 ∨ b.extractLsb' 0 4 = 0xD#4 ∨ b.extractLsb' 0 4 = 0x8#4 then .pulse
  else if b.extractLsb' 7 1 = 1#1 then .command
  else .character

/-- The operand bytes, all zero, that follow a selector the table gives no operand bits for. -/
def zeroOperands (port : Port) (b : Byte) : List Byte :=
  match port with
  | .hostOp =>
    if b = 0x00#8 then [0x00#8]
    else if b = 0x02#8 then [0x00#8, 0x00#8]
    else if b = 0x03#8 then [0x00#8, 0x00#8]
    else []
  | .resetPhase => []
  | .command => []
  | .character => []
  | .pulse => []
  | .bare => []

/-- The bytes of an instruction whose table bits are `w`: the one word of every row, then operand bytes of zeros. -/
def tableBytes (w : Nat) : List Byte :=
  BitVec.ofNat 8 w :: zeroOperands (tablePort (BitVec.ofNat 8 w)) (BitVec.ofNat 8 w)

/-- What the decoder, with the parameters at the defaults the opcode table is written for, reads from an instruction whose bits
are `w`, numbered as the table numbers them. Every row of
the table fits one byte. -/
def decodeTableWord (nbits w : Nat) : Option Instr :=
  if w < 2 ^ min nbits 8 then
    (decode Machine.defaultParams (tablePort (BitVec.ofNat 8 w)) (tableBytes w)).toOption
  else none

end Sys2Proof
end

