-- ==== Sys2Proof/Machine/State.lean ====
section
/-! DEFINITION. The state of one block instance (R20), what it exchanges with its collaborators (R6, R13), and why a step can
stop. -/

namespace Sys2Proof.Machine

/-- The configuration record: Display Geometry (R21), Bus Endpoint (R22) and the LED pin (R23). Written once, by CONSTRUCT. -/
structure Configuration where
  bus     : Byte
  sdaPin  : Byte
  sclPin  : Byte
  i2cAddr : Addr7
  rows    : Byte
  cols    : Byte
  base    : RowBases
  ledPin  : Byte
deriving DecidableEq, Repr

/-- The result of one transmission (R150, R221): `k` is its index inside its operation, from 0. -/
inductive TxResult where
  | ok
  | busWriteIncomplete (k : Nat)
deriving DecidableEq, Repr

/-- What an operation returns: its result list (R222) and the number of errors in it (R224). -/
structure Response where
  results  : List TxResult
  errCount : Nat
deriving DecidableEq, Repr

/-- A completed call on an external collaborator (R6, R120, R240, R245, R246). -/
inductive Call where
  /-- `init(bus, bit_rate)` of the transport. -/
  | initBus (bus : Byte) (bitRate : Nat)
  /-- `assign_pins(data_pin, clock_pin)` of the transport. -/
  | assignPins (dataPin clkPin : Byte)
  /-- `configure_output(pin)`. -/
  | configureOutput (pin : Byte)
  /-- `write_bytes(bus, address, buffer, length)` of the transport, returned. -/
  | writeBytes (bus : Byte) (address : Addr7) (buffer : List Byte) (length : Nat)
  /-- A sleep of at least `t` microseconds. -/
  | sleep (t : Nat)
  /-- `set_pin(pin, level)`. -/
  | setPin (pin : Byte) (level : Bool)
deriving DecidableEq, Repr

/-- What the transport does with one write: it returns a signed count or error value (R55), or it never returns (R57). -/
inductive Reply where
  | returns (ret : Int)
  | never
deriving DecidableEq, Repr

/-- The steps a framed byte or an operation is made of at the bottom (R12). -/
inductive Prim where
  /-- `Tx(b)` (R150). -/
  | tx (b : Byte)
  /-- `Delay(t)` (R240). -/
  | delay (t : Nat)
  /-- `SetPin(level)` (R12, R210). -/
  | setPin (level : Bool)
  /-- `cur_row <- row; cur_col <- col` (R11). -/
  | setCursor (row col : Byte)
deriving DecidableEq, Repr

/-- One line of an operation's pseudocode: a logical or transmitted byte to send, or a bottom step. -/
inductive Item where
  /-- Run a LOG8 or BUS8 instruction. -/
  | op (i : Instr)
  /-- Run one bottom step. -/
  | prim (q : Prim)
deriving DecidableEq, Repr

/-- The sequencer's position (R30). -/
inductive Seq where
  | idle
  /-- `BUSY(op, point)`: the operation with its operands, the results of its transmissions so far (R222), and the
  pseudocode still to run, its next line first. -/
  | busy (op : Instr) (results : List TxResult) (rest : List Item)
deriving DecidableEq, Repr

/-- The state. -/
structure State where
  /-- The parameters (R8); never written. -/
  params : Params
  /-- The configuration; absent before CONSTRUCT (R38). -/
  config : Option Configuration
  /-- `cur_row` (R26). -/
  curRow : Byte
  /-- `cur_col` (R26). -/
  curCol : Byte
  /-- `wbuf`, COLS elements once constructed (R29). -/
  wbuf : List Byte
  /-- `seq` (R30). -/
  seq : Seq
  /-- Has the LED pin been configured as an output? (R120, R260) -/
  ledOutput : Bool
  /-- The LED pin's level (R39, R210). -/
  ledLevel : Bool
  /-- The host's request not yet accepted, as bytes (R30, D1). -/
  request : Option (List Byte)
  /-- What the last completed operation returned; none while an operation runs (R222, R224). -/
  response : Option Response
  /-- The completed calls on the collaborators, oldest first (R6, R63). -/
  log : List Call
  /-- INPUT: what the transport does with the coming writes, next first (R13, R57). Past its end the transport returns a
  free value. -/
  replies : List Reply
  /-- The model's own: the index of the next free value. -/
  fresh : Nat
deriving DecidableEq, Repr

/-- Why a run halts: never. "There are no fatal errors that halt the driver" (R225), an error transfers no control (R223),
and nothing can fault for lack of rights (R235). A transport that never returns leaves the machine where it is (R57). -/
inductive Fault where
deriving DecidableEq, Repr

/-- Inputs the spec gives the hardware no meaning for (R227), each by name. Every one is SAFE: the machine stops. -/
inductive Refusal where
  /-- Raised by an arm of exec whose instruction has no meaning yet. Safe. -/
  | notModelled (mnemonic : String)
  /-- Raised by every host operation: a request while BUSY (R250). Safe. -/
  | requestWhileBusy
  /-- Raised by every instruction but CONSTRUCT: there is no configuration yet (R38). Safe. -/
  | notConstructed
  /-- Raised by CONSTRUCT: the instance is constructed already (R120). Safe. -/
  | alreadyConstructed
  /-- Raised by CONSTRUCT: the configuration is not legal (R9). Safe. -/
  | illegalConfiguration
  /-- Raised by PRINT: the text is longer than LEN_MAX (R32). Safe. -/
  | textTooLong
  /-- Raised by RESERVED_7: the reserved selector (R106). Safe. -/
  | reservedSelector
  /-- Raised by LOG8 and BUS8 instructions: no operation is in progress that could send the byte (R100, R108). Safe. -/
  | noOperationInProgress
  /-- Raised by the step: the host's request is no encoding. Safe. -/
  | undecodable (e : DecodeError)
deriving DecidableEq, Repr

/-- The block before CONSTRUCT (R38, R260), with the default parameters. `curRow`, `curCol`, `wbuf` and `ledLevel` have no
value in the spec here (DESIGN CHOICE, log entries 8, 9, 10). -/
def State.reset : State where
  params := defaultParams
  config := none
  curRow := 0x00#8
  curCol := 0x00#8
  wbuf := []
  seq := .idle
  ledOutput := false
  ledLevel := false
  request := none
  response := none
  log := []
  replies := []
  fresh := 0

end Sys2Proof.Machine
end

