-- ==== Sys2Proof/Machine/Flags.lean ====
section
/-! DEFINITION. The control-line flags of a transmitted byte (R82 to R86) and the result of a transmission (R150, R221). The
block has no condition codes and no stored status flags (R33). -/

namespace Sys2Proof.Machine

/-- The register-select line of a high-phase byte (R84, R140). -/
def rsFlag (p : Params) (mode : Mode) : Byte :=
  match mode with
  | .command => 0x00#8
  | .character => p.rsBit

/-- Is the value one of the four single bits inside 0x0F? (R9) -/
def isControlBit (b : Byte) : Bool :=
  b = 0x01#8 || b = 0x02#8 || b = 0x04#8 || b = 0x08#8

/-- The control-line part of a legal configuration: four distinct single bits inside 0x0F (R9). -/
def controlBitsLegal (p : Params) : Bool :=
  isControlBit p.rsBit && isControlBit p.rwBit && isControlBit p.enBit && isControlBit p.blBit
    && p.rsBit != p.rwBit && p.rsBit != p.enBit && p.rsBit != p.blBit
    && p.rwBit != p.enBit && p.rwBit != p.blBit && p.enBit != p.blBit

/-- The result check of `Tx`: one byte was requested, so a return below 1, error values included, is a short write (R150);
`k` is the transmission's index in its operation (R221). -/
def txResult (k : Nat) (ret : Int) : TxResult :=
  if ret < 1 then .busWriteIncomplete k else .ok

/-- Is the entry an error? -/
def TxResult.isError : TxResult → Bool
  | .ok => false
  | .busWriteIncomplete _ => true

/-- The code of a result (R221). -/
def TxResult.code : TxResult → Nat
  | .ok => 0
  | .busWriteIncomplete _ => 1

/-- `err_count` (R224). -/
def errCount (results : List TxResult) : Nat := results.countP TxResult.isError

/-- What an operation returns (R222, R224). -/
def respond (results : List TxResult) : Response := ⟨results, errCount results⟩

/-- A legal geometry and bus address (R9); `cols <= 255` holds of every byte. -/
def geometryLegal (base : RowBases) (rows cols address : Byte) : Bool :=
  decide (1 ≤ rows.toNat) && decide (rows.toNat ≤ 4) && decide (1 ≤ cols.toNat)
    && (List.range rows.toNat).all (fun r => decide ((baseOf base r).toNat + cols.toNat - 1 ≤ 0x7F))
    && decide (address.toNat ≤ 0x7F)

/-- A legal configuration (R9): CONSTRUCT refuses any other (R120). -/
def configurationLegal (p : Params) (a : ConstructArgs) : Bool :=
  geometryLegal p.base a.rows a.columns a.address && controlBitsLegal p

end Sys2Proof.Machine
end

