-- ==== Sys2Proof/Machine/Operands.lean ====
section
/-! DEFINITION. What the operations send, as data: framing (R140, R142), the enable pulse (R152 to R156), the address
translation (R62), the text layout (R170 to R175), and the pseudocode of each operation as a list of its lines. Nothing here
reads or writes State, so what an operation does on the bus is fixed when it is accepted (R65, R223). -/

namespace Sys2Proof.Machine

/-! ### Framing -/

/-- `Frame(v, mode)` (R140): `(mostNibble, leastNibble)`. -/
def frame (p : Params) (v : Byte) (mode : Mode) : Byte × Byte :=
  ((v &&& 0xF0#8) ||| p.blBit ||| p.enBit ||| rsFlag p mode,
   ((v <<< 4) &&& 0xF0#8) ||| p.blBit ||| p.enBit ||| rsFlag p mode)

/-- `LowPhase(n)` (R142). -/
def lowPhase (p : Params) (n : Byte) : Byte :=
  n &&& ~~~(p.enBit ||| p.rsBit ||| p.rwBit)

/-- The high-phase byte of a data nibble (R80, R87, R140). -/
def highPhaseByte (p : Params) (data : Nibble) (mode : Mode) : Byte :=
  (data ++ 0x0#4) ||| p.blBit ||| p.enBit ||| rsFlag p mode

/-- The low-phase byte of a data nibble (R87, R142). -/
def lowPhaseByte (p : Params) (data : Nibble) : Byte :=
  lowPhase p (highPhaseByte p data .command)

/-! ### Bus sequencing -/

/-- `SendNibble(n)` (R152): the enable pulse. -/
def sendNibble (p : Params) (n : Byte) : List Prim :=
  [.tx n, .delay p.tEn, .tx (lowPhase p n), .delay p.tEn]

/-- `SendNibblePair(m, l)` (R153). -/
def sendNibblePair (p : Params) (m l : Byte) : List Prim :=
  sendNibble p m ++ sendNibble p l

/-- `SendByte(v, mode)` (R156). -/
def sendByte (p : Params) (v : Byte) (mode : Mode) : List Prim :=
  sendNibblePair p (frame p v mode).1 (frame p v mode).2

/-- How a reset-phase byte travels (R124): like every command, or, with the switch on, as its low nibble alone. -/
def sendResetPhase (p : Params) (v : Byte) : List Prim :=
  if p.initSingleNibble then sendNibble p (((v <<< 4) &&& 0xF0#8) ||| p.blBit ||| p.enBit)
  else sendByte p v .command

/-- The bottom steps of a LOG8 or BUS8 instruction. A host operation is never a line of another operation's pseudocode and
has none. -/
def prims (p : Params) : Instr → List Prim
  | .construct _ => []
  | .init => []
  | .print _ => []
  | .moveCursor _ _ => []
  | .shiftLeft => []
  | .shiftRight => []
  | .flashLed => []
  | .reserved7 => []
  | .resetByte => sendResetPhase p p.resetByte
  | .mode4Byte => sendResetPhase p p.mode4Byte
  | .cmdFunctionSet => sendByte p p.functionSet .command
  | .cmdEntryMode => sendByte p p.entryMode .command
  | .cmdClear => sendByte p p.clear .command
  | .cmdHome => sendByte p p.home .command
  | .cmdDisplayOn => sendByte p p.displayOn .command
  | .cmdSetDdram address => sendByte p (p.setDdram ||| address.setWidth 8) .command
  | .cmdShiftLeft => sendByte p p.shiftLeft .command
  | .cmdShiftRight => sendByte p p.shiftRight .command
  | .character code => sendByte p code .character
  | .busHighCommand data => [.tx (highPhaseByte p data .command)]
  | .busHighCharacter data => [.tx (highPhaseByte p data .character)]
  | .busLowPhase data => [.tx (lowPhaseByte p data)]
  | .busBacklightOnly => [.tx p.blBit]

/-- The bottom steps of one line of pseudocode. -/
def itemPrims (p : Params) : Item → List Prim
  | .op i => prims p i
  | .prim q => [q]

/-! ### Addresses -/

/-- Is (row, col) on the configured display? (R58, R190) -/
def onDisplay (c : Configuration) (row col : Byte) : Bool :=
  decide (row.toNat < c.rows.toNat) && decide (col.toNat < c.cols.toNat)

/-- The DDRAM address of (row, col) (R62). For a pair on a legally configured display the sum fits 7 bits (R193). -/
def ddramAddress (base : RowBases) (row col : Byte) : Addr7 := baseOf base row.toNat + col.setWidth 7

/-- `MoveCursor(row, col)` (R190): nothing at all for a pair that is not on the display (R191). -/
def moveCursorItems (c : Configuration) (row col : Byte) : List Item :=
  if onDisplay c row col then
    [.op (.cmdSetDdram (ddramAddress c.base row col)), .prim (.setCursor row col)]
  else []

/-! ### Initialisation -/

/-- `INIT` (R122), line by line. -/
def initItems (p : Params) : List Item :=
  [.op .resetByte, .prim (.delay p.tInit1),
   .op .resetByte, .prim (.delay p.tInit2),
   .op .resetByte, .prim (.delay p.tInit3),
   .op .mode4Byte,
   .op .cmdFunctionSet,
   .op .cmdEntryMode,
   .op .cmdClear, .prim (.delay p.tClear),
   .op .busBacklightOnly,
   .op .cmdHome,
   .op .cmdDisplayOn,
   .prim (.setCursor 0x00#8 0x00#8)]

/-! ### Text layout -/

/-- The write buffer's contents for a text that fits (R171, R172). -/
def padded (p : Params) (cols : Byte) (text : List Byte) : List Byte :=
  text ++ List.replicate (cols.toNat - text.length) p.spaceCode

/-- Characters, the lowest index first (R52, R174). -/
def characterItems (codes : List Byte) : List Item :=
  codes.map (fun code => .op (.character code))

/-- Window `i` of a scroll: `text[i .. i+W)` (R173). -/
def window (cols : Byte) (text : List Byte) (i : Nat) : List Byte :=
  (text.drop i).take cols.toNat

/-- How many windows a scroll has (R173). -/
def windowCount (cols : Byte) (text : List Byte) : Nat := text.length - cols.toNat + 1

/-- The scroll (R173, R175): each window is a cursor move to column 0 of the current row, its characters, and the pause. -/
def scrollItems (p : Params) (c : Configuration) (row : Byte) (text : List Byte) : List Item :=
  (List.range (windowCount c.cols text)).flatMap fun i =>
    moveCursorItems c row 0x00#8 ++ characterItems (window c.cols text i) ++ [.prim (.delay p.tScroll)]

/-! ### The indicator LED -/

/-- `FLASH_LED` (R210): on, wait, off, wait, `N_LED` times. -/
def flashItems (p : Params) : List Item :=
  (List.replicate p.nLed
    [.prim (.setPin true), .prim (.delay p.tLed), .prim (.setPin false), .prim (.delay p.tLed)]).flatten

end Sys2Proof.Machine
end

