-- ==== Sys2Proof/Machine/Ops.lean ====
section
/-! DEFINITION. The operations over State that every meaning is built from: one bus write, one transmission with its result
check (the block's only error, raised in ONE place, `State.record`), the bottom steps, the lines of an operation in progress,
and accepting and completing an operation. An error saves nothing, changes no mode and goes to no handler (R232), so there is
no return from one (R233). -/

namespace Sys2Proof.Machine

/-- How one instruction or step ends. -/
abbrev Result := Host.Outcome State Fault Refusal

/-! ### The collaborators -/

/-- What the transport does with the next write: the next reply, or past the list's end a free value (R13, U6). -/
def State.nextReply (s : State) : Reply :=
  match s.replies with
  | r :: _ => r
  | [] => .returns (Config.freeReturn s.fresh)

/-- The next reply is used up. -/
def State.dropReply (s : State) : State :=
  match s.replies with
  | _ :: rs => { s with replies := rs }
  | [] => { s with fresh := s.fresh + 1 }

/-- A call on a collaborator has returned. -/
def State.called (s : State) (call : Call) : State := { s with log := s.log ++ [call] }

/-- The result check (R150): `Ok`, or `raise BusWriteIncomplete(k)`, goes into the result list of the operation in progress
and nothing else changes (R222, R223, R232). -/
def State.record (s : State) (ret : Int) : State :=
  match s.seq with
  | .idle => s
  | .busy op results rest => { s with seq := .busy op (results ++ [txResult results.length ret]) rest }

/-- `Tx(b)` (R150): one `BusWrite` of one byte to the one target (R54, R55, R60), then the result check. `none` while the
transport does not return (R57): the write is not finished, and the reply `never` stays. -/
def tx (c : Configuration) (b : Byte) (s : State) : Option State :=
  match s.nextReply with
  | .never => none
  | .returns ret => some ((s.dropReply.called (.writeBytes c.bus c.i2cAddr [b] 1)).record ret)

/-! ### Bottom steps -/

/-- The LED pin's level, and nothing else (R210). -/
def State.setLevel (s : State) (level : Bool) : State := { s with ledLevel := level }

/-- The whole write buffer, and nothing else (R29). -/
def State.setBuffer (s : State) (codes : List Byte) : State := { s with wbuf := codes }

/-- The cursor registers, and nothing else (R11, R27). -/
def State.setCursor (s : State) (row col : Byte) : State := { s with curRow := row, curCol := col }

/-- One bottom step; `none` while the transport does not return. -/
def prim (c : Configuration) (q : Prim) (s : State) : Option State :=
  match q with
  | .tx b => tx c b s
  | .delay t => some (s.called (.sleep t))
  | .setPin level => some ((s.called (.setPin c.ledPin level)).setLevel level)
  | .setCursor row col => some (s.setCursor row col)

/-- Bottom steps in order (R63). The second part is what is left when the transport does not return. -/
def runPrims (c : Configuration) : List Prim → State → State × List Prim
  | [], s => (s, [])
  | q :: qs, s =>
    match prim c q s with
    | some s' => runPrims c qs s'
    | none => (s, q :: qs)

/-! ### An operation in progress -/

/-- The position inside the operation in progress (R30). -/
def State.setRest (s : State) (rest : List Item) : State :=
  match s.seq with
  | .idle => s
  | .busy op results _ => { s with seq := .busy op results rest }

/-- The last event is done: `seq <- IDLE`, and the results go to the host (R30, R222, R224, R225). -/
def State.complete (s : State) : State :=
  match s.seq with
  | .idle => s
  | .busy _ results _ => { s with seq := .idle, response := some (respond results) }

/-- After a line of pseudocode: with nothing left the operation is complete, otherwise it stands at `rest`. -/
def State.arriveAt (s : State) (rest : List Item) : State :=
  match rest with
  | [] => s.complete
  | it :: its => s.setRest (it :: its)

/-- Runs bottom steps, then stands at `rest`; while the transport does not return, at what is left before it. -/
def advance (c : Configuration) (qs : List Prim) (rest : List Item) (s : State) : State :=
  let r := runPrims c qs s
  r.1.arriveAt (r.2.map Item.prim ++ rest)

/-- Runs lines of pseudocode to the operation's end (R31, R177): an error changes nothing of it (R223). -/
def runItems (c : Configuration) : List Item → State → State
  | [], s => s.complete
  | it :: its, s =>
    let r := runPrims c (itemPrims s.params it) s
    match r.2 with
    | [] => runItems c its r.1
    | q :: qs => r.1.setRest ((q :: qs).map Item.prim ++ its)

/-! ### Accepting an operation -/

/-- Acceptance: `seq <- BUSY(op, start)`; the request is taken and the last operation's response is gone (R30, R224). -/
def State.accept (s : State) (op : Instr) (items : List Item) : State :=
  { s with seq := .busy op [] items, request := none, response := none }

/-- A host operation that needs the configuration: accepted only when `seq` is idle (R30, R250) and after CONSTRUCT (R38). -/
def State.whenReady (s : State) (k : Configuration → Result) : Result :=
  match s.seq with
  | .busy _ _ _ => .refused .requestWhileBusy
  | .idle =>
    match s.config with
    | none => .refused .notConstructed
    | some c => k c

/-- Accepts `op` and runs it to its end. -/
def perform (c : Configuration) (op : Instr) (items : List Item) (s : State) : Result :=
  .next (runItems c items (s.accept op items))

/-- Runs a LOG8 or BUS8 instruction for the operation in progress (R87, R90 to R99, R105): its bottom steps, then the
operation stands where it stood, or is complete when nothing is left of it. -/
def perOperation (i : Instr) (s : State) : Result :=
  match s.seq with
  | .idle => .refused .noOperationInProgress
  | .busy _ _ rest =>
    match s.config with
    | none => .refused .notConstructed
    | some c => .next (advance c (prims s.params i) rest s)

/-! ### Construction -/

/-- The configuration CONSTRUCT writes (R21 to R23, R120). -/
def configurationOf (p : Params) (a : ConstructArgs) : Configuration where
  bus := a.bus
  sdaPin := a.dataPin
  sclPin := a.clkPin
  i2cAddr := a.address.setWidth 7
  rows := a.rows
  cols := a.columns
  base := p.base
  ledPin := p.ledPin

/-- `n` elements of the write buffer that hold no particular value (R39, U8): FREE VALUES. -/
def freeBuffer (fresh n : Nat) : List Byte := (List.range n).map (fun k => Config.freeCell (fresh + k))

/-- CONSTRUCT up to its INIT (R120, R260, R263): the configuration, the three set-up calls in order, the write buffer and the
LED level without a particular value. DESIGN CHOICE (log entry 18): the three set-up calls return, which the spec leaves open (R57
and D23 speak of a `BusWrite`). -/
def State.setUp (s : State) (a : ConstructArgs) : State :=
  { s with
    config := some (configurationOf s.params a)
    wbuf := freeBuffer s.fresh a.columns.toNat
    ledOutput := true
    ledLevel := Config.freeLevel s.fresh
    log := s.log ++ [.initBus a.bus s.params.bitRate, .assignPins a.dataPin a.clkPin, .configureOutput s.params.ledPin]
    fresh := s.fresh + a.columns.toNat }

/-- The operands of a CONSTRUCT of either form (R102). -/
def constructArgs (p : Params) (args : Option ConstructArgs) : ConstructArgs := args.getD (defaultArgs p)

/-! ### Fetching -/

/-- Is a request waiting? -/
def State.fetched (s : State) : Option Decoded := s.request.map (decode s.params .hostOp)

/-- Where withFetchWord finds no configuration, the operation CONSTRUCT() that must come first is taken as set up (log
entry 13). -/
def State.ensureSetUp (s : State) : State :=
  match s.config with
  | none => s.setUp (defaultArgs s.params)
  | some _ => s

/-- The operation in progress with its next line replaced by `i` alone; in an idle block, an INIT that has only `i` left. -/
def State.placeLine (s : State) (i : Instr) : State :=
  match s.seq with
  | .idle => { s with request := none, seq := .busy .init [] [.op i] }
  | .busy op results _ => { s with request := none, seq := .busy op results [.op i] }

/-- A request for `i` placed at an idle block. -/
def State.placeRequest (s : State) (bytes : List Byte) : State :=
  { s with request := some bytes, seq := .idle }

/-- Is the instruction accepted only after CONSTRUCT? (R38) -/
def needsConfiguration : Instr → Bool
  | .construct _ => false
  | .init => true
  | .print _ => true
  | .moveCursor _ _ => true
  | .shiftLeft => true
  | .shiftRight => true
  | .flashLed => true
  | .reserved7 => false
  | .resetByte => true
  | .mode4Byte => true
  | .cmdFunctionSet => true
  | .cmdEntryMode => true
  | .cmdClear => true
  | .cmdHome => true
  | .cmdDisplayOn => true
  | .cmdSetDdram _ => true
  | .cmdShiftLeft => true
  | .cmdShiftRight => true
  | .character _ => true
  | .busHighCommand _ => true
  | .busHighCharacter _ => true
  | .busLowPhase _ => true
  | .busBacklightOnly => true

/-- `i` placed where the next step fetches: at the host's request port, or as the next line of the operation in progress. -/
def State.placeInstr (s : State) (i : Instr) : State :=
  let s' := if needsConfiguration i then s.ensureSetUp else s
  match i.port with
  | .hostOp => s'.placeRequest (encode s.params i)
  | .resetPhase => s'.placeLine i
  | .command => s'.placeLine i
  | .character => s'.placeLine i
  | .pulse => s'.placeLine i
  | .bare => s'.placeLine i

end Sys2Proof.Machine
end

