-- ==== Sys2Proof/Machine/Bus.lean ====
section
/-! DEFINITION. The meanings of the transmitted bytes (format BUS8, R80, R87): each is one `Tx` (R150) for the operation in
progress. -/

namespace Sys2Proof.Machine

/-- High-phase byte, mode Command (R140, R152 step 1). -/
def execBusHighCommand (data : Nibble) (s : State) : Result := perOperation (.busHighCommand data) s

/-- High-phase byte, mode Character (R140, R152 step 1). -/
def execBusHighCharacter (data : Nibble) (s : State) : Result := perOperation (.busHighCharacter data) s

/-- Low-phase byte (R142, R152 step 3). -/
def execBusLowPhase (data : Nibble) (s : State) : Result := perOperation (.busLowPhase data) s

/-- The backlight-only byte (R128). -/
def execBusBacklightOnly (s : State) : Result := perOperation .busBacklightOnly s

end Sys2Proof.Machine
end

