-- ==== Sys2Proof/Machine/HostOps.lean ====
section
/-! DEFINITION. The meanings of the host operations (format HOSTOP, R100). -/

namespace Sys2Proof.Machine

/-- CONSTRUCT (R120): accepted once, for a legal configuration (R9); it sets the block up and runs INIT (R122, R264). -/
def execConstruct (args : Option ConstructArgs) (s : State) : Result :=
  match s.seq with
  | .busy _ _ _ => .refused .requestWhileBusy
  | .idle =>
    match s.config with
    | some _ => .refused .alreadyConstructed
    | none =>
      let a := constructArgs s.params args
      if configurationLegal s.params a then
        perform (configurationOf s.params a) (.construct args) (initItems s.params) (s.setUp a)
      else .refused .illegalConfiguration

/-- INIT (R122). -/
def execInit (s : State) : Result :=
  s.whenReady fun c => perform c .init (initItems s.params) s

/-- PRINT (R170): a text that fits is laid out in the write buffer, which is then flushed (R171, R172, R174); a longer one is
scrolled and leaves the buffer alone (R173). -/
def execPrint (text : List Byte) (s : State) : Result :=
  s.whenReady fun c =>
    if lenMax s.params c.cols < text.length then .refused .textTooLong
    else if text.length ≤ c.cols.toNat then
      let line := padded s.params c.cols text
      perform c (.print text) (characterItems line) (s.setBuffer line)
    else perform c (.print text) (scrollItems s.params c s.curRow text) s

/-- MOVE_CURSOR (R190, R191). -/
def execMoveCursor (row col : Byte) (s : State) : Result :=
  s.whenReady fun c => perform c (.moveCursor row col) (moveCursorItems c row col) s

/-- SHIFT_LEFT (R200). -/
def execShiftLeft (s : State) : Result :=
  s.whenReady fun c => perform c .shiftLeft [.op .cmdShiftLeft] s

/-- SHIFT_RIGHT (R201). -/
def execShiftRight (s : State) : Result :=
  s.whenReady fun c => perform c .shiftRight [.op .cmdShiftRight] s

/-- FLASH_LED (R210). -/
def execFlashLed (s : State) : Result :=
  s.whenReady fun c => perform c .flashLed (flashItems s.params) s

/-- RESERVED_7 (R106): the block has no eighth operation. -/
def execReserved7 (_ : State) : Result := .refused .reservedSelector

end Sys2Proof.Machine
end

