-- ==== Sys2Proof/Machine/Logical.lean ====
section
/-! DEFINITION. The meanings of the logical bytes (format LOG8, R81): each is one `SendByte` (R156) for the operation in
progress. -/

namespace Sys2Proof.Machine

/-- RESET_BYTE (R90), as R124 says it travels. -/
def execResetByte (s : State) : Result := perOperation .resetByte s

/-- MODE4_BYTE (R91, R125), as R124 says it travels. -/
def execMode4Byte (s : State) : Result := perOperation .mode4Byte s

/-- Function-Set (R92). -/
def execCmdFunctionSet (s : State) : Result := perOperation .cmdFunctionSet s

/-- Entry-Mode-Set (R93). -/
def execCmdEntryMode (s : State) : Result := perOperation .cmdEntryMode s

/-- Clear-Display (R94); the delay after it is INIT's (R127). -/
def execCmdClear (s : State) : Result := perOperation .cmdClear s

/-- Return-Home (R95). -/
def execCmdHome (s : State) : Result := perOperation .cmdHome s

/-- Display-Control (R96). -/
def execCmdDisplayOn (s : State) : Result := perOperation .cmdDisplayOn s

/-- Set-DDRAM-Address (R97, R104). -/
def execCmdSetDdram (address : Addr7) (s : State) : Result := perOperation (.cmdSetDdram address) s

/-- Display_Shift_Left (R98). -/
def execCmdShiftLeft (s : State) : Result := perOperation .cmdShiftLeft s

/-- Display_Shift_Right (R99). -/
def execCmdShiftRight (s : State) : Result := perOperation .cmdShiftRight s

/-- A character code, sent unchanged (R105). -/
def execCharacter (code : Byte) (s : State) : Result := perOperation (.character code) s

end Sys2Proof.Machine
end

