-- ==== Sys2Proof/Machine/Dispatch.lean ====
section
/-! DEFINITION. One arm per instruction, each one direct call of its meaning. -/

namespace Sys2Proof.Machine

/-- What an instruction does. -/
def exec (i : Instr) (s : State) : Host.Outcome State Fault Refusal :=
  match i with
  | .construct args => Sys2Proof.Machine.execConstruct args s
  | .init => Sys2Proof.Machine.execInit s
  | .print text => Sys2Proof.Machine.execPrint text s
  | .moveCursor row col => Sys2Proof.Machine.execMoveCursor row col s
  | .shiftLeft => Sys2Proof.Machine.execShiftLeft s
  | .shiftRight => Sys2Proof.Machine.execShiftRight s
  | .flashLed => Sys2Proof.Machine.execFlashLed s
  | .reserved7 => Sys2Proof.Machine.execReserved7 s
  | .resetByte => Sys2Proof.Machine.execResetByte s
  | .mode4Byte => Sys2Proof.Machine.execMode4Byte s
  | .cmdFunctionSet => Sys2Proof.Machine.execCmdFunctionSet s
  | .cmdEntryMode => Sys2Proof.Machine.execCmdEntryMode s
  | .cmdClear => Sys2Proof.Machine.execCmdClear s
  | .cmdHome => Sys2Proof.Machine.execCmdHome s
  | .cmdDisplayOn => Sys2Proof.Machine.execCmdDisplayOn s
  | .cmdSetDdram address => Sys2Proof.Machine.execCmdSetDdram address s
  | .cmdShiftLeft => Sys2Proof.Machine.execCmdShiftLeft s
  | .cmdShiftRight => Sys2Proof.Machine.execCmdShiftRight s
  | .character code => Sys2Proof.Machine.execCharacter code s
  | .busHighCommand data => Sys2Proof.Machine.execBusHighCommand data s
  | .busHighCharacter data => Sys2Proof.Machine.execBusHighCharacter data s
  | .busLowPhase data => Sys2Proof.Machine.execBusLowPhase data s
  | .busBacklightOnly => Sys2Proof.Machine.execBusBacklightOnly s

end Sys2Proof.Machine
end

