-- ==== Sys2Proof/Machine/Step.lean ====
section
/-! DEFINITION. One step of the block. -/

namespace Sys2Proof.Machine

/-- A waiting request is decoded and run: while BUSY it is refused (R250). Without one, an idle block waits, and an operation
in progress runs its next line (R30, R31). -/
def step (s : State) : Host.Outcome State Fault Refusal :=
  match s.fetched with
  | some (.ok i) => exec i s
  | some (.error e) => .refused (.undecodable e)
  | none =>
    match s.seq with
    | .idle => .next s
    | .busy _ _ [] => .next s.complete
    | .busy _ _ (.op i :: rest) => exec i (s.setRest rest)
    | .busy _ _ (.prim q :: rest) =>
      match s.config with
      | none => .refused .notConstructed
      | some c => .next (advance c [q] rest s)

/-- `s` with the instruction whose table bits are `w` placed where `step` fetches its next instruction: at the host's request
port of an idle block for a host operation, as the next line of an operation in progress for a logical or transmitted byte, on
a block that is set up (log entry 13). Bits that are no word of the table are placed as an empty request, which no decoder
accepts. -/
def State.withFetchWord (s : State) (nbits w : Nat) : State :=
  match decodeTableWord nbits w with
  | some i => s.placeInstr i
  | none => s.placeRequest []

end Sys2Proof.Machine
end

