-- ==== Sys2Proof/Safety.lean ====
section
/-! DEFINITION. The terms claims use: the trace (R13), the named assumption on the transport (R57), what each operation must put
on the bus written out from the rules (not from the machine's own lists), and the invariant of the block. -/

namespace Sys2Proof.Machine

/-! ### The observation -/

/-- An event of the trace (R13). -/
inductive Event where
  | tx (b : Byte)
  | delay (t : Nat)
  | pin (level : Bool)
deriving DecidableEq, Repr

/-- The event a call leaves: the set-up calls leave none (R13, R120). -/
def Call.event : Call → Option Event
  | .initBus _ _ => none
  | .assignPins _ _ => none
  | .configureOutput _ => none
  | .writeBytes _ _ buffer _ => buffer.head?.map .tx
  | .sleep t => some (.delay t)
  | .setPin _ level => some (.pin level)

/-- The trace (R13). -/
def State.trace (s : State) : List Event := s.log.filterMap Call.event

/-- The call that leaves an event, on a block configured as `c` (R12, R55, R60). -/
def Event.call (c : Configuration) : Event → Call
  | .tx b => .writeBytes c.bus c.i2cAddr [b] 1
  | .delay t => .sleep t
  | .pin level => .setPin c.ledPin level

/-- The byte a `TX` event carries. -/
def Event.byte : Event → Option Byte
  | .tx b => some b
  | .delay _ => none
  | .pin _ => none

/-- The bytes of the `TX` events, in order. -/
def txBytes (events : List Event) : List Byte := events.filterMap Event.byte

/-- How many transmissions are in a sequence of events. -/
def txCount (events : List Event) : Nat := (txBytes events).length

/-- The minimum duration an event takes, transport time not counted (R290). -/
def Event.duration : Event → Nat
  | .tx _ => 0
  | .delay t => t
  | .pin _ => 0

/-- The minimum duration of a sequence of events (R290). -/
def duration (events : List Event) : Nat := (events.map Event.duration).sum

/-! ### Words -/

/-- The command bytes without an operand (R92 to R96, R98, R99). -/
def plainCommands (p : Params) : List Byte :=
  [p.functionSet, p.entryMode, p.clear, p.home, p.displayOn, p.shiftLeft, p.shiftRight]

/-- The parameters tell the words presented at a place apart: the reset-phase bytes differ (R90, R91), the plain commands differ and
none is a Set-DDRAM-Address command, which leaves bits 6:0 to the address (R92 to R99), the control lines are a legal
configuration's (R9). No rule asks the command bytes to differ, so this is a premise wherever it is needed. -/
def wordsApart (p : Params) : Port → Prop
  | .hostOp => True
  | .resetPhase => p.resetByte ≠ p.mode4Byte
  | .command =>
    (plainCommands p).Nodup ∧ p.setDdram.extractLsb' 0 7 = 0#7 ∧ ∀ b ∈ plainCommands p, isSetDdramWord p b = false
  | .character => True
  | .pulse => controlBitsLegal p = true
  | .bare => True

/-! ### The transport -/

/-- The named assumption of R57: every bus write returns. -/
abbrev State.transportReturns (s : State) : Prop := Reply.never ∉ s.replies

/-- The results of the next `n` transmissions, the first of them with index `k` (R150, R221, R222): each return value in turn,
past the list's end the free ones. Nothing follows a write that does not return. -/
def resultsOf : List Reply → Nat → Nat → Nat → List TxResult
  | _, _, _, 0 => []
  | .never :: _, _, _, _ + 1 => []
  | .returns ret :: rs, fresh, k, n + 1 => txResult k ret :: resultsOf rs fresh (k + 1) n
  | [], fresh, k, n + 1 => txResult k (Config.freeReturn fresh) :: resultsOf [] (fresh + 1) (k + 1) n

/-- The state after `events` on the bus, as far as the collaborators are concerned: the calls logged in order, the replies
used up. -/
def State.afterEvents (s : State) (c : Configuration) (events : List Event) : State :=
  { s with
    log := s.log ++ events.map (Event.call c)
    replies := s.replies.drop (txCount events)
    fresh := s.fresh + (txCount events - s.replies.length) }

/-- The state after a host operation that makes `events` and, so far, nothing else: the request taken, `seq` idle again, the
result list and the error count returned (R30, R222, R224, R225). -/
def State.afterOperation (s : State) (c : Configuration) (events : List Event) : State :=
  { s.afterEvents c events with
    seq := .idle
    request := none
    response := some (respond (resultsOf s.replies s.fresh 0 (txCount events))) }

/-- The state after one more line of the operation `op`, which made `events`: it goes on with `rest`, or is complete. -/
def State.afterLine (s : State) (c : Configuration) (op : Instr) (results : List TxResult) (rest : List Item)
    (events : List Event) : State :=
  let results' := results ++ resultsOf s.replies s.fresh results.length (txCount events)
  match rest with
  | [] => { s.afterEvents c events with seq := .idle, response := some (respond results') }
  | it :: its => { s.afterEvents c events with seq := .busy op results' (it :: its) }

/-! ### What must be sent, from the rules -/

/-- The 8 events of `SendByte(v, mode)`, as R156 writes them out. -/
def sendByteEvents (p : Params) (v : Byte) (mode : Mode) : List Event :=
  let rs := match mode with
    | .command => 0x00#8
    | .character => p.rsBit
  [.tx ((v &&& 0xF0#8) ||| p.blBit ||| p.enBit ||| rs), .delay p.tEn,
   .tx ((v &&& 0xF0#8) ||| p.blBit), .delay p.tEn,
   .tx (((v <<< 4) &&& 0xF0#8) ||| p.blBit ||| p.enBit ||| rs), .delay p.tEn,
   .tx (((v <<< 4) &&& 0xF0#8) ||| p.blBit), .delay p.tEn]

/-- The 4 events of a reset-phase byte when `INIT_SINGLE_NIBBLE` is on (R124, D5). -/
def singleNibbleEvents (p : Params) (v : Byte) : List Event :=
  [.tx (((v <<< 4) &&& 0xF0#8) ||| p.blBit ||| p.enBit), .delay p.tEn,
   .tx (((v <<< 4) &&& 0xF0#8) ||| p.blBit), .delay p.tEn]

/-- The events of a reset-phase byte (R124). -/
def resetPhaseEvents (p : Params) (v : Byte) : List Event :=
  if p.initSingleNibble then singleNibbleEvents p v else sendByteEvents p v .command

/-- The events of INIT, step by step (R122). -/
def initEvents (p : Params) : List Event :=
  resetPhaseEvents p p.resetByte ++ [.delay p.tInit1]
    ++ resetPhaseEvents p p.resetByte ++ [.delay p.tInit2]
    ++ resetPhaseEvents p p.resetByte ++ [.delay p.tInit3]
    ++ resetPhaseEvents p p.mode4Byte
    ++ sendByteEvents p p.functionSet .command
    ++ sendByteEvents p p.entryMode .command
    ++ sendByteEvents p p.clear .command ++ [.delay p.tClear]
    ++ [.tx p.blBit]
    ++ sendByteEvents p p.home .command
    ++ sendByteEvents p p.displayOn .command

/-- The events of characters sent left to right (R52, R174). -/
def characterEvents (p : Params) (codes : List Byte) : List Event :=
  codes.flatMap fun code => sendByteEvents p code .character

/-- The events of an accepted cursor move to a DDRAM address (R97, R104, R190). -/
def cursorEvents (p : Params) (address : Byte) : List Event :=
  sendByteEvents p (p.setDdram ||| address) .command

/-- The events of a scroll on row base `base`: for every window the cursor move to column 0, `W` characters, the pause
(R170, R173, R175). -/
def scrollEvents (p : Params) (base : Byte) (w : Nat) (text : List Byte) : List Event :=
  (List.range (text.length - w + 1)).flatMap fun i =>
    cursorEvents p base ++ characterEvents p ((text.drop i).take w) ++ [.delay p.tScroll]

/-- The events of FLASH_LED (R210). -/
def flashEvents (p : Params) : List Event :=
  (List.replicate p.nLed [.pin true, .delay p.tLed, .pin false, .delay p.tLed]).flatten

/-- `BASE` as a list of numbers (R21). -/
def bases (b : RowBases) : List Nat := [b.row0.toNat, b.row1.toNat, b.row2.toNat, b.row3.toNat]

/-- The lines of a host operation's pseudocode, on a block configured as `c` whose cursor is on row `row`. A byte has no lines
of its own: it is one. -/
def linesOf (p : Params) (c : Configuration) (row : Byte) : Instr → List Item
  | .construct _ => initItems p
  | .init => initItems p
  | .print text =>
    if text.length ≤ c.cols.toNat then characterItems (padded p c.cols text) else scrollItems p c row text
  | .moveCursor r k => moveCursorItems c r k
  | .shiftLeft => [.op .cmdShiftLeft]
  | .shiftRight => [.op .cmdShiftRight]
  | .flashLed => flashItems p
  | .reserved7 => []
  | .resetByte => []
  | .mode4Byte => []
  | .cmdFunctionSet => []
  | .cmdEntryMode => []
  | .cmdClear => []
  | .cmdHome => []
  | .cmdDisplayOn => []
  | .cmdSetDdram _ => []
  | .cmdShiftLeft => []
  | .cmdShiftRight => []
  | .character _ => []
  | .busHighCommand _ => []
  | .busHighCharacter _ => []
  | .busLowPhase _ => []
  | .busBacklightOnly => []

/-! ### The invariant -/

/-- The low four bits of every transmitted byte: one of the three shapes of R87, for the parameters' bit values. -/
def busShape (p : Params) (b : Byte) : Prop :=
  b &&& 0x0F#8 = p.blBit ||| p.enBit ∨ b &&& 0x0F#8 = p.blBit ||| p.enBit ||| p.rsBit ∨ b &&& 0x0F#8 = p.blBit

/-- A call a constructed block may make: one byte of a legal shape to its one target (R54, R60, R87), its own pins (R120,
R245). -/
def Call.allowed (p : Params) (c : Configuration) : Call → Prop
  | .initBus bus bitRate => bus = c.bus ∧ bitRate = p.bitRate
  | .assignPins dataPin clkPin => dataPin = c.sdaPin ∧ clkPin = c.sclPin
  | .configureOutput pin => pin = c.ledPin
  | .writeBytes bus address buffer length =>
    bus = c.bus ∧ address = c.i2cAddr ∧ length = 1 ∧ ∃ b, buffer = [b] ∧ busShape p b
  | .sleep _ => True
  | .setPin pin _ => pin = c.ledPin

/-- A line of pseudocode a constructed block may have before it: only bytes of a legal shape, only cursor positions on the
display. -/
def Item.allowed (p : Params) (c : Configuration) : Item → Prop
  | .op _ => True
  | .prim (.tx b) => busShape p b
  | .prim (.delay _) => True
  | .prim (.setPin _) => True
  | .prim (.setCursor row col) => row.toNat < c.rows.toNat ∧ col.toNat < c.cols.toNat

/-- The lines an operation in progress still has to run. -/
def Seq.pending : Seq → List Item
  | .idle => []
  | .busy _ _ rest => rest

/-- A block before CONSTRUCT (R38, R260). -/
def State.unconstructed (s : State) : Prop :=
  s.seq = .idle ∧ s.curRow = 0x00#8 ∧ s.curCol = 0x00#8 ∧ s.log = []

/-- A block after CONSTRUCT was accepted: its configuration is legal (R9), the cursor is on the display (R26), the buffer is one
row long (R29), every call it made and every line before it is allowed. -/
def State.constructed (s : State) (c : Configuration) : Prop :=
  geometryLegal c.base c.rows c.cols (c.i2cAddr.setWidth 8) = true ∧ controlBitsLegal s.params = true
    ∧ s.curRow.toNat < c.rows.toNat ∧ s.curCol.toNat < c.cols.toNat
    ∧ s.wbuf.length = c.cols.toNat
    ∧ (∀ call ∈ s.log, call.allowed s.params c)
    ∧ (∀ it ∈ s.seq.pending, it.allowed s.params c)

/-- The invariant of the block. -/
def State.Inv (s : State) : Prop :=
  match s.config with
  | none => s.unconstructed
  | some c => s.constructed c

/-! ### Running the step -/

/-- A constructed block ready for a request. -/
def State.readyAs (s : State) (c : Configuration) : Prop := s.seq = .idle ∧ s.config = some c

/-- A constructed block in the middle of an operation. -/
def State.runningAs (s : State) (c : Configuration) (op : Instr) (results : List TxResult) (rest : List Item) : Prop :=
  s.seq = .busy op results rest ∧ s.config = some c

/-! ### Reading a trace back (a checking aid, R60; general knowledge, not part of the block) -/

/-- The nibbles the far end latches: every byte with enable set that is directly followed by one with enable clear yields its
data bits and its register-select bit. -/
def latched (p : Params) : List Byte → List (Nibble × Bool)
  | [] => []
  | [_] => []
  | a :: b :: rest =>
    if a &&& p.enBit ≠ 0x00#8 ∧ b &&& p.enBit = 0x00#8 then
      (a.extractLsb' 4 4, decide (a &&& p.rsBit ≠ 0x00#8)) :: latched p (b :: rest)
    else latched p (b :: rest)

/-- Nibbles paired two by two, the first one high. -/
def paired : List (Nibble × Bool) → List (Byte × Bool)
  | (h, rs) :: (l, _) :: rest => (h ++ l, rs) :: paired rest
  | _ => []

/-- The logical bytes a receiver reads from the transmissions of a sequence of events. -/
def received (p : Params) (events : List Event) : List (Byte × Bool) := paired (latched p (txBytes events))

end Sys2Proof.Machine
end

