-- ==== Sys2Proof/Certificates/Slice0/Obligations.lean ====
section
/-! DEFINITION. The statements for the provers. Each cites the rule of spec/ it formalises; a clause that rests on a choice of the
model's names its log entry. -/

open Sys2Proof Sys2Proof.Machine

/-! ### Words -/

/-- Every well-formed instruction is read back from its encoding (R80, R81, R92 to R100, R105, R106; the operand layout is log
entry 1), with every operand at every value, for all parameters that tell the words of the instruction's place apart. -/
def Obligations.DecodeOfEncode : Prop :=
  ∀ (p : Params) (i : Instr), WellFormed i → wordsApart p i.port → decode p i.port (encode p i) = .ok i

/-- What the decoder accepts at a place is exactly an encoding of a well-formed instruction of that place, whatever the
parameters: no two byte strings mean one instruction, and nothing reserved falls through to a neighbour (R106 to R109; the
operand layout is log entry 1, the places are log entry 12). -/
def Obligations.DecodeReadsOnlyEncodings : Prop :=
  ∀ (p : Params) (port : Port) (bytes : List Byte) (i : Instr),
    decode p port bytes = .ok i → i.port = port ∧ WellFormed i ∧ encode p i = bytes

/-- A few words written out from the table: a sanity check (the operand bytes of the host operations are log entry 1). The values
of the control-line bits and the command bytes that the words rest on are premises (R86; log entries 3 and 4). -/
def Obligations.TableWordsDecode : Prop :=
  ∀ p : Params,
    p.rsBit = 0x01#8 → p.enBit = 0x04#8 → p.blBit = 0x08#8 → p.resetByte = 0x03#8 → p.mode4Byte = 0x02#8 →
    plainCommands p = [0x28#8, 0x06#8, 0x01#8, 0x02#8, 0x0C#8, 0x18#8, 0x1C#8] → p.setDdram = 0x80#8 →
    decode p .hostOp [0b00000011#8, 0x01#8, 0x0F#8] = .ok (.moveCursor 0x01#8 0x0F#8)
      ∧ decode p .hostOp [0b00000010#8, 0x02#8, 0x00#8, 0x48#8, 0x69#8] = .ok (.print [0x48#8, 0x69#8])
      ∧ decode p .command [0b11000011#8] = .ok (.cmdSetDdram 0b1000011#7)
      ∧ decode p .command [0b00101000#8] = .ok .cmdFunctionSet
      ∧ decode p .resetPhase [0b00000010#8] = .ok .mode4Byte
      ∧ decode p .pulse [0b01001101#8] = .ok (.busHighCharacter 0b0100#4)
      ∧ decode p .bare [0b00001000#8] = .ok .busBacklightOnly
      ∧ decode p .hostOp [0b00000111#8] = .ok .reserved7

/-! ### The step -/

/-- A request that decodes is run by the very next step, and every request that decodes is well-formed (R30, R100). -/
def Obligations.StepRunsTheRequest : Prop :=
  ∀ (s : State) (bytes : List Byte) (i : Instr),
    s.request = some bytes → decode s.params .hostOp bytes = .ok i → WellFormed i ∧ step s = exec i s

/-- Without a request the next line of the operation in progress is run, with the lines after it left to run (R30, R31): an
instruction, or a bottom step (a transmission left over, a delay, a pin level, a write of the cursor). With no line left the
operation is completed. -/
def Obligations.StepRunsTheNextLine : Prop :=
  ∀ (s : State) (op : Instr) (results : List TxResult) (rest : List Item), s.request = none →
    (∀ i, s.seq = .busy op results (.op i :: rest) → step s = exec i { s with seq := .busy op results rest })
      ∧ (∀ q c, s.seq = .busy op results (.prim q :: rest) → s.config = some c → step s = .next (advance c [q] rest s))
      ∧ (s.seq = .busy op results [] → step s = .next s.complete)

/-- An idle block without a request stays as it is, and a request that is no encoding is refused by the decoder's name for
what is wrong (R30, R227; log entry 11). -/
def Obligations.StepWithoutAnInstruction : Prop :=
  (∀ s : State, s.request = none → s.seq = .idle → step s = .next s)
    ∧ ∀ (s : State) (bytes : List Byte) (e : DecodeError),
      s.request = some bytes → decode s.params .hostOp bytes = .error e → step s = .refused (.undecodable e)

/-- R57: a transport call that never returns. The block is stuck inside that write for good, `seq` stays BUSY, and no later
event is produced. -/
def Obligations.TransportThatNeverReturns : Prop :=
  ∀ (s : State) (c : Configuration) (op : Instr) (results : List TxResult) (b : Byte) (rest : List Item)
    (replies : List Reply),
    s.runningAs c op results (.prim (.tx b) :: rest) → s.request = none → s.replies = .never :: replies →
    ∀ n : Nat, Host.Core.run Sys2Proof.core n s = .next s

/-- R57 for every host operation that is accepted. Where `exec` leaves it not finished, the next answer of the transport is
the one that never comes; the operation has answered nothing, what it put on the bus before stays, and every later step
leaves the block as it is. That a bus write is the only call that can fail to return (not a set-up call, a sleep or
`set_pin`) is the model's choice (log entry 18), and so is the form of the stuck run (log entry 2). Such a run exists: a
shift whose first write does not return is BUSY with no event made. -/
def Obligations.OperationThatNeverReturns : Prop :=
  (∀ (s t : State) (i : Instr), i.port = .hostOp → exec i s = .next t → t.seq ≠ .idle →
    t.nextReply = .never ∧ t.response = none ∧ s.log <+: t.log
      ∧ ∀ n : Nat, Host.Core.run Sys2Proof.core n t = .next t)
    ∧ ∀ (s : State) (c : Configuration) (replies : List Reply),
      s.readyAs c → s.replies = .never :: replies →
      ∃ t, exec .shiftLeft s = .next t ∧ t.trace = s.trace ∧ t.seq ≠ .idle ∧ t.replies = s.replies

/-! ### What is refused -/

/-- R250: a request made while BUSY is refused, whatever it asks for. (Selector 7 is refused as what it is.) -/
def Obligations.BusyBlockRefusesRequests : Prop :=
  ∀ (s : State) (i op : Instr) (results : List TxResult) (rest : List Item),
    i.port = .hostOp → i ≠ .reserved7 → s.seq = .busy op results rest → exec i s = .refused .requestWhileBusy

/-- R38: before CONSTRUCT the block has no configuration and accepts no other operation. -/
def Obligations.NothingBeforeConstruct : Prop :=
  State.reset.config = none ∧
  ∀ (s : State) (i : Instr),
    i.port = .hostOp → (∀ args, i ≠ .construct args) → i ≠ .reserved7 → s.seq = .idle → s.config = none →
    exec i s = .refused .notConstructed

/-- R106: host selector 7 is reserved, and a model refuses it. That the request is the one byte 0x07 is the model's choice (log
entry 1). -/
def Obligations.ReservedSelectorIsRefused : Prop :=
  (∀ p : Params, decode p .hostOp [0x07#8] = .ok .reserved7) ∧ ∀ s : State, exec .reserved7 s = .refused .reservedSelector

/-- R120: a second CONSTRUCT on a constructed instance is refused. -/
def Obligations.SecondConstructIsRefused : Prop :=
  ∀ (s : State) (c : Configuration) (args : Option ConstructArgs),
    s.readyAs c → exec (.construct args) s = .refused .alreadyConstructed

/-- R9: CONSTRUCT accepts exactly the legal configurations, whatever the row table. -/
def Obligations.OnlyLegalConfigurations : Prop :=
  ∀ (s : State) (a : ConstructArgs), s.seq = .idle → s.config = none →
    let p := s.params
    let legal : Prop :=
      1 ≤ a.rows.toNat ∧ a.rows.toNat ≤ 4 ∧ 1 ≤ a.columns.toNat ∧ a.columns.toNat ≤ 255
        ∧ (∀ r, r < a.rows.toNat → (bases p.base).getD r 0 + a.columns.toNat - 1 ≤ 0x7F)
        ∧ a.address.toNat ≤ 0x7F
        ∧ (∀ bit ∈ [p.rsBit, p.rwBit, p.enBit, p.blBit], ∃ k : Nat, k < 4 ∧ bit.toNat = 2 ^ k)
        ∧ [p.rsBit, p.rwBit, p.enBit, p.blBit].Nodup
    (legal → ∃ t, exec (.construct (some a)) s = .next t)
      ∧ (¬ legal → exec (.construct (some a)) s = .refused .illegalConfiguration)

/-- R32: a text is accepted exactly when its length is at most LEN_MAX, a longer one is refused; LEN_MAX is by default
`COLS + 255`, so that the scroll offset never passes 255. -/
def Obligations.TextLengthLimit : Prop :=
  ∀ (s : State) (c : Configuration) (text : List Byte), s.readyAs c →
    let limit := match s.params.lenMax with
      | none => c.cols.toNat + 255
      | some n => n
    (text.length ≤ limit → ∃ t, exec (.print text) s = .next t)
      ∧ (limit < text.length → exec (.print text) s = .refused .textTooLong)
      ∧ (s.params.lenMax = none → text.length ≤ limit → text.length - c.cols.toNat ≤ 255)

/-- Logical and transmitted bytes are sent by an operation in progress only: asked of an idle block they are refused (R100,
R108; log entry 12). -/
def Obligations.InnerBytesNeedAnOperation : Prop :=
  ∀ (s : State) (i : Instr), i.port ≠ .hostOp → s.seq = .idle → exec i s = .refused .noOperationInProgress

/-! ### Framing -/

/-- R141: the laws of `Frame`. -/
def Obligations.FrameLaws : Prop :=
  ∀ (p : Params) (v : Byte), controlBitsLegal p = true →
    let m := (frame p v .command).1
    let l := (frame p v .command).2
    frame p v .character = (m ||| p.rsBit, l ||| p.rsBit)
      ∧ m.extractLsb' 4 4 = v.extractLsb' 4 4
      ∧ l.extractLsb' 4 4 = v.extractLsb' 0 4
      ∧ m.extractLsb' 0 4 = (p.blBit ||| p.enBit).extractLsb' 0 4
      ∧ l.extractLsb' 0 4 = (p.blBit ||| p.enBit).extractLsb' 0 4

/-- R142: the low-phase byte of a nibble byte keeps the data bits and the backlight bit, and enable, register-select and
read/write are low in it. -/
def Obligations.LowPhaseOfANibbleByte : Prop :=
  ∀ (p : Params) (v : Byte) (mode : Mode), controlBitsLegal p = true →
    lowPhase p (frame p v mode).1 = (v &&& 0xF0#8) ||| p.blBit
      ∧ lowPhase p (frame p v mode).2 = ((v <<< 4) &&& 0xF0#8) ||| p.blBit
      ∧ ∀ n : Byte, lowPhase p n &&& (p.enBit ||| p.rsBit ||| p.rwBit) = 0x00#8
        ∧ lowPhase p n &&& 0xF0#8 = n &&& 0xF0#8 ∧ lowPhase p n &&& p.blBit = n &&& p.blBit

/-! ### Logical bytes -/

/-- R156 for the commands: the operation in progress makes exactly the 8 events of `SendByte`, gets four more results, and goes
on with its next line or is complete; nothing else changes. -/
def Obligations.CommandBytesAreSent : Prop :=
  ∀ (s : State) (c : Configuration) (op : Instr) (results : List TxResult) (rest : List Item),
    s.runningAs c op results rest → s.transportReturns → controlBitsLegal s.params = true →
    let sent := fun v => Host.Outcome.next (s.afterLine c op results rest (sendByteEvents s.params v .command))
    exec .cmdFunctionSet s = sent s.params.functionSet
      ∧ exec .cmdEntryMode s = sent s.params.entryMode
      ∧ exec .cmdClear s = sent s.params.clear
      ∧ exec .cmdHome s = sent s.params.home
      ∧ exec .cmdDisplayOn s = sent s.params.displayOn
      ∧ exec .cmdShiftLeft s = sent s.params.shiftLeft
      ∧ exec .cmdShiftRight s = sent s.params.shiftRight
      ∧ ∀ address : Addr7, exec (.cmdSetDdram address) s = sent (s.params.setDdram ||| address.zeroExtend 8)

/-- R105, R156: a character code is sent unchanged in mode Character, whatever the code. -/
def Obligations.CharacterIsSentVerbatim : Prop :=
  ∀ (s : State) (c : Configuration) (op : Instr) (results : List TxResult) (rest : List Item) (code : Byte),
    s.runningAs c op results rest → s.transportReturns → controlBitsLegal s.params = true →
    exec (.character code) s = .next (s.afterLine c op results rest (sendByteEvents s.params code .character))

/-- R90, R91, R124: the reset-phase bytes travel as two nibbles, or as their low nibble alone with the switch on. -/
def Obligations.ResetPhaseBytesAreSent : Prop :=
  ∀ (s : State) (c : Configuration) (op : Instr) (results : List TxResult) (rest : List Item),
    s.runningAs c op results rest → s.transportReturns → controlBitsLegal s.params = true →
    let sent := fun events => Host.Outcome.next (s.afterLine c op results rest events)
    (s.params.initSingleNibble = false →
        exec .resetByte s = sent (sendByteEvents s.params s.params.resetByte .command)
          ∧ exec .mode4Byte s = sent (sendByteEvents s.params s.params.mode4Byte .command))
      ∧ (s.params.initSingleNibble = true →
        exec .resetByte s = sent (singleNibbleEvents s.params s.params.resetByte)
          ∧ exec .mode4Byte s = sent (singleNibbleEvents s.params s.params.mode4Byte))

/-! ### Transmitted bytes -/

/-- R80, R87: each transmitted byte is one transmission of its shape. -/
def Obligations.TransmittedBytesAreSent : Prop :=
  ∀ (s : State) (c : Configuration) (op : Instr) (results : List TxResult) (rest : List Item) (data : Nibble),
    s.runningAs c op results rest → s.transportReturns → controlBitsLegal s.params = true →
    let p := s.params
    let sent := fun b => Host.Outcome.next (s.afterLine c op results rest [.tx b])
    exec (.busHighCommand data) s = sent ((data.zeroExtend 8 <<< 4) ||| p.blBit ||| p.enBit)
      ∧ exec (.busHighCharacter data) s = sent ((data.zeroExtend 8 <<< 4) ||| p.blBit ||| p.enBit ||| p.rsBit)
      ∧ exec (.busLowPhase data) s = sent ((data.zeroExtend 8 <<< 4) ||| p.blBit)
      ∧ exec .busBacklightOnly s = sent p.blBit

/-- R150, R221: one transmission. The event is made whatever the transport returns; a return below 1 is
`BusWriteIncomplete` with the index of the transmission, anything else is `Ok`; the sequencer goes on in both cases. -/
def Obligations.TransmissionRecordsItsResult : Prop :=
  ∀ (s : State) (c : Configuration) (op : Instr) (results : List TxResult) (it : Item) (rest : List Item)
    (ret : Int) (replies : List Reply),
    s.runningAs c op results (it :: rest) → s.replies = .returns ret :: replies →
    ∃ t, exec .busBacklightOnly s = .next t
      ∧ t.trace = s.trace ++ [.tx s.params.blBit]
      ∧ t.replies = replies
      ∧ (ret < 1 → t.seq = .busy op (results ++ [.busWriteIncomplete results.length]) (it :: rest))
      ∧ (1 ≤ ret → t.seq = .busy op (results ++ [.ok]) (it :: rest))

/-! ### Initialisation and construction -/

/-- R122, R40: INIT makes its events in the fixed order, writes 0 to both cursor registers, answers with its results, and
changes nothing else. -/
def Obligations.InitRunsTheWholeSequence : Prop :=
  ∀ (s : State) (c : Configuration), s.readyAs c → s.transportReturns → controlBitsLegal s.params = true →
    exec .init s =
      .next { s.afterOperation c (initEvents s.params) with curRow := 0x00#8, curCol := 0x00#8 }

/-- R133: the size of INIT's trace. -/
def Obligations.InitTraceSize : Prop :=
  ∀ (s : State) (c : Configuration), s.readyAs c → s.transportReturns → controlBitsLegal s.params = true →
    ∃ t events, exec .init s = .next t ∧ t.trace = s.trace ++ events
      ∧ (s.params.initSingleNibble = false →
        txCount events = 37
          ∧ events.countP (fun e => match e with | .delay _ => true | .tx _ => false | .pin _ => false) = 40
          ∧ duration events = 36 * s.params.tEn + s.params.tInit1 + s.params.tInit2 + s.params.tInit3 + s.params.tClear)
      ∧ (s.params.initSingleNibble = true → txCount events = 29)

/-- R120, R24, R260, R263: CONSTRUCT on a block that has no configuration yet. It writes the configuration from its operands
or the defaults, makes the three set-up calls in order before the first transmission, runs INIT, and leaves the block idle
at (0, 0). The premise says that every bus write returns; that the set-up calls and the sleeps return too, so that CONSTRUCT
completes, is the model's choice (log entry 18). -/
def Obligations.ConstructSetsUpAndInitialises : Prop :=
  ∀ (s : State) (args : Option ConstructArgs),
    let a : ConstructArgs := args.getD ⟨s.params.defaultBus, 4#8, 5#8, 0x27#8, 2#8, 16#8⟩
    let c : Configuration := ⟨a.bus, a.dataPin, a.clkPin, a.address.setWidth 7, a.rows, a.columns, s.params.base, s.params.ledPin⟩
    s.seq = .idle → s.config = none → s.transportReturns → configurationLegal s.params a = true →
    ∃ t, exec (.construct args) s = .next t
      ∧ t.config = some c ∧ t.params = s.params
      ∧ t.log = s.log
        ++ [.initBus a.bus s.params.bitRate, .assignPins a.dataPin a.clkPin, .configureOutput s.params.ledPin]
        ++ (initEvents s.params).map (Event.call c)
      ∧ t.curRow = 0x00#8 ∧ t.curCol = 0x00#8 ∧ t.wbuf.length = a.columns.toNat ∧ t.seq = .idle
      ∧ t.ledOutput = true ∧ t.request = none
      ∧ ∃ results, t.response = some (respond results) ∧ results.length = txCount (initEvents s.params)

/-- R261, which the spec infers from R122 and R156: the first byte on the bus after reset is the high-phase byte of the high
nibble of RESET_BYTE. With INIT_SINGLE_NIBBLE on it is that of the low nibble, the only one sent (R124). That CONSTRUCT gets
past its set-up calls is the model's choice (log entry 18). -/
def Obligations.FirstByteAfterReset : Prop :=
  ∀ (s : State) (args : Option ConstructArgs) (t : State),
    s.log = [] → s.config = none → s.transportReturns → exec (.construct args) s = .next t →
    let p := s.params
    (p.initSingleNibble = false →
        (txBytes t.trace).head? = some ((p.resetByte &&& 0xF0#8) ||| p.blBit ||| p.enBit))
      ∧ (p.initSingleNibble = true →
        (txBytes t.trace).head? = some (((p.resetByte <<< 4) &&& 0xF0#8) ||| p.blBit ||| p.enBit))

/-! ### Text layout -/

/-- R171, R172, R174: a text that fits (and is accepted, R170). The buffer is the text, then spaces up to W; all W characters are sent, left to
right; the cursor registers and everything else keep their values. -/
def Obligations.PrintThatFits : Prop :=
  ∀ (s : State) (c : Configuration) (text : List Byte),
    s.readyAs c → s.transportReturns → controlBitsLegal s.params = true → text.length ≤ c.cols.toNat →
    text.length ≤ lenMax s.params c.cols →
    ∃ laid : List Byte,
      exec (.print text) s = .next { s.afterOperation c (characterEvents s.params laid) with wbuf := laid }
        ∧ laid.length = c.cols.toNat
        ∧ (∀ k, k < text.length → laid[k]? = text[k]?)
        ∧ (∀ k, text.length ≤ k → k < c.cols.toNat → laid[k]? = some s.params.spaceCode)
        ∧ (text.length = c.cols.toNat → laid = text)

/-- R173, R175: scroll mode. `len - W + 1` windows, each a cursor move to column 0 of the current row, the W characters of
`text[i .. i+W)`, and the pause; the buffer is untouched and the column becomes 0. The premise on the row is the invariant of
R26. -/
def Obligations.PrintThatScrolls : Prop :=
  ∀ (s : State) (c : Configuration) (text : List Byte),
    s.readyAs c → s.transportReturns → controlBitsLegal s.params = true →
    geometryLegal c.base c.rows c.cols (c.i2cAddr.setWidth 8) = true → s.curRow.toNat < c.rows.toNat →
    c.cols.toNat < text.length → text.length ≤ lenMax s.params c.cols →
    exec (.print text) s =
      .next { s.afterOperation c
          (scrollEvents s.params (BitVec.ofNat 8 ((bases c.base).getD s.curRow.toNat 0)) c.cols.toNat text)
        with curCol := 0x00#8 }

/-- R178: the size of PRINT's trace in both branches. -/
def Obligations.PrintTraceSize : Prop :=
  ∀ (s : State) (c : Configuration) (text : List Byte),
    s.readyAs c → s.transportReturns → controlBitsLegal s.params = true →
    geometryLegal c.base c.rows c.cols (c.i2cAddr.setWidth 8) = true → s.curRow.toNat < c.rows.toNat →
    text.length ≤ lenMax s.params c.cols →
    let w := c.cols.toNat
    let n := text.length - w + 1
    ∃ t events, exec (.print text) s = .next t ∧ t.trace = s.trace ++ events
      ∧ (text.length ≤ w → txCount events = 4 * w ∧ duration events = 4 * w * s.params.tEn)
      ∧ (w < text.length → txCount events = 4 * n * (w + 1)
        ∧ duration events = n * (s.params.tScroll + (w + 1) * 4 * s.params.tEn))

/-! ### Cursor, shift, LED -/

/-- R190, R191: MOVE_CURSOR. Out of range: no transmission, no error, no state change (the empty result list is returned). In
range: one framed Set-DDRAM-Address command for `BASE[row] + col`, then the registers hold the requested pair. -/
def Obligations.MoveCursorMoves : Prop :=
  ∀ (s : State) (c : Configuration) (row col : Byte),
    s.readyAs c → s.transportReturns → controlBitsLegal s.params = true →
    geometryLegal c.base c.rows c.cols (c.i2cAddr.setWidth 8) = true →
    exec (.moveCursor row col) s = .next
      (if c.rows.toNat ≤ row.toNat ∨ c.cols.toNat ≤ col.toNat then
        { s with seq := .idle, request := none, response := some ⟨[], 0⟩ }
      else
        { s.afterOperation c (cursorEvents s.params
            (BitVec.ofNat 8 ((bases c.base).getD row.toNat 0 + col.toNat)))
          with curRow := row, curCol := col })

/-- R62, R193: the address of an accepted pair is the sum of base and column, at most 0x7F, with no wrap. -/
def Obligations.AddressNeverWraps : Prop :=
  ∀ (base : RowBases) (rows cols address row col : Byte), geometryLegal base rows cols address = true →
    row.toNat < rows.toNat → col.toNat < cols.toNat →
    (ddramAddress base row col).toNat = (bases base).getD row.toNat 0 + col.toNat
      ∧ (ddramAddress base row col).toNat ≤ 0x7F

/-- R200, R201: each shift is one framed command and changes no driver state. -/
def Obligations.ShiftsAreOneCommand : Prop :=
  ∀ (s : State) (c : Configuration), s.readyAs c → s.transportReturns → controlBitsLegal s.params = true →
    exec .shiftLeft s = .next (s.afterOperation c (sendByteEvents s.params s.params.shiftLeft .command))
      ∧ exec .shiftRight s = .next (s.afterOperation c (sendByteEvents s.params s.params.shiftRight .command))

/-- R210: FLASH_LED makes `N_LED` on/off pairs with a wait after each level, no transmission and so no result, and leaves the
pin at 0. -/
def Obligations.FlashLedBlinks : Prop :=
  ∀ (s : State) (c : Configuration), s.readyAs c → 0 < s.params.nLed →
    exec .flashLed s = .next { s.afterOperation c (flashEvents s.params) with ledLevel := false }
      ∧ txCount (flashEvents s.params) = 0
      ∧ (flashEvents s.params).length = 4 * s.params.nLed
      ∧ duration (flashEvents s.params) = 2 * s.params.nLed * s.params.tLed

/-! ### Errors -/

/-- R223: an error never transfers control. Two runs that differ only in what the transport returns make the same calls in the
same order and leave the same state, but for the results. -/
def Obligations.ErrorsNeverTransferControl : Prop :=
  ∀ (s t : State) (i : Instr) (replies : List Reply),
    s.transportReturns → Reply.never ∉ replies → exec i s = .next t →
    ∃ t', exec i { s with replies := replies } = .next t'
      ∧ t'.log = t.log ∧ t'.params = t.params ∧ t'.config = t.config
      ∧ t'.curRow = t.curRow ∧ t'.curCol = t.curCol ∧ t'.wbuf = t.wbuf
      ∧ t'.ledOutput = t.ledOutput ∧ t'.ledLevel = t.ledLevel ∧ t'.request = t.request
      ∧ t'.seq.pending = t.seq.pending ∧ (t'.seq = .idle ↔ t.seq = .idle)
      ∧ t'.response.map (fun r => r.results.length) = t.response.map (fun r => r.results.length)

/-- R222: the length of the result list of every operation; 29 for INIT with INIT_SINGLE_NIBBLE on (R133). That an operation
whose writes return does end is, for its other calls, the model's choice (log entry 18). -/
def Obligations.ResultListLengths : Prop :=
  ∀ (s t : State) (i : Instr) (c : Configuration),
    i.port = .hostOp → s.transportReturns → s.Inv →
    exec i s = .next t → t.config = some c →
    ∃ results, t.response = some (respond results) ∧ results.length =
      match i with
      | .construct _ => if s.params.initSingleNibble then 29 else 37
      | .init => if s.params.initSingleNibble then 29 else 37
      | .print text =>
        if text.length ≤ c.cols.toNat then 4 * c.cols.toNat
        else 4 * (text.length - c.cols.toNat + 1) * (c.cols.toNat + 1)
      | .moveCursor row col => if row.toNat < c.rows.toNat ∧ col.toNat < c.cols.toNat then 4 else 0
      | .shiftLeft => 4
      | .shiftRight => 4
      | _ => 0

/-- R224, R225: after any operation, whatever its results, `seq` is idle, and the answer's `err_count` is the number of
`BusWriteIncomplete` entries in its list. The premise says that every bus write returns; that the set-up calls, the sleeps
and `set_pin` return too is the model's choice (log entry 18). -/
def Obligations.OperationEndsIdleWithItsCount : Prop :=
  ∀ (s t : State) (i : Instr),
    i.port = .hostOp → s.transportReturns → exec i s = .next t →
    t.seq = .idle ∧ t.request = none
      ∧ ∃ results, t.response = some ⟨results, results.countP (fun r => r != .ok)⟩

/-- R221: the entry of the list that reports an error carries its own index in the list. -/
def Obligations.ErrorNamesItsTransmission : Prop :=
  ∀ (s t : State) (i : Instr) (r : Response) (k j : Nat),
    i.port = .hostOp → s.transportReturns → exec i s = .next t → t.response = some r →
    r.results[k]? = some (.busWriteIncomplete j) → j = k

/-! ### Frames -/

/-- The frame of the logical and transmitted bytes: all 15 of them write nothing but the log, the results of the operation in
progress and its position (R140, R150, R156: "State written: none"). -/
def Obligations.InnerBytesFrame : Prop :=
  ∀ (s t : State) (i : Instr), i.port ≠ .hostOp → exec i s = .next t →
    t.params = s.params ∧ t.config = s.config ∧ t.curRow = s.curRow ∧ t.curCol = s.curCol ∧ t.wbuf = s.wbuf
      ∧ t.ledOutput = s.ledOutput ∧ t.ledLevel = s.ledLevel ∧ t.request = s.request
      ∧ s.log <+: t.log

/-- R27, R40, R122, R170, R190: the writers of the cursor registers, over all host operations of a configured block, completed or
stuck in a write (R57, log entry 2). CONSTRUCT, which a configured block refuses, is left out: ConstructSetsUpAndInitialises. INIT and an
accepted MOVE_CURSOR write both registers after their last byte, so stuck in a write they have not written them; a scroll that
is stuck has written column 0 or nothing. -/
def Obligations.CursorWriters : Prop :=
  ∀ (s t : State) (i : Instr) (c : Configuration), i.port = .hostOp → s.config = some c → exec i s = .next t →
    let kept : Prop := t.curRow = s.curRow ∧ t.curCol = s.curCol
    match i with
    | .init => if t.seq = .idle then t.curRow = 0x00#8 ∧ t.curCol = 0x00#8 else kept
    | .moveCursor row col =>
      if t.seq = .idle ∧ row.toNat < c.rows.toNat ∧ col.toNat < c.cols.toNat then t.curRow = row ∧ t.curCol = col else kept
    | .print text =>
      t.curRow = s.curRow ∧ (t.curCol = s.curCol ∨ t.curCol = 0x00#8) ∧ (text.length ≤ c.cols.toNat → t.curCol = s.curCol)
        ∧ (c.cols.toNat < text.length → s.curRow.toNat < c.rows.toNat → 0 < c.cols.toNat → t.seq = .idle →
          t.curCol = 0x00#8)
    | _ => kept

/-- The frame of the host operations other than CONSTRUCT: parameters, configuration and the pin's direction keep their values;
only a PRINT that fits writes the buffer (R29), only FLASH_LED the LED level (R211); what was on the bus stays. -/
def Obligations.HostOperationsFrame : Prop :=
  ∀ (s t : State) (i : Instr) (c : Configuration), i.port = .hostOp → s.config = some c → exec i s = .next t →
    t.params = s.params ∧ t.config = s.config ∧ t.ledOutput = s.ledOutput
      ∧ (i ≠ .flashLed → t.ledLevel = s.ledLevel)
      ∧ ((∀ text, i = .print text → c.cols.toNat < text.length) → t.wbuf = s.wbuf)
      ∧ s.log <+: t.log

/-! ### Independence -/

/-- R28, R29, R211: nothing the block puts on the bus depends on `cur_col`, on the earlier contents of the write buffer or on
the LED's level: two blocks that differ only there make the same calls for every instruction. -/
def Obligations.HiddenStateIsNeverSent : Prop :=
  ∀ (s t : State) (i : Instr) (col : Byte) (buffer : List Byte) (level : Bool),
    exec i s = .next t →
    ∃ t', exec i { s with curCol := col, wbuf := buffer, ledLevel := level } = .next t'
      ∧ t'.log = t.log ∧ t'.seq = t.seq ∧ t'.response = t.response ∧ t'.curRow = t.curRow

/-! ### Invariants over every step -/

/-- R20, R22, R38: the parameters never change, and once there is a configuration no step changes it. -/
def Obligations.ConfigurationIsWrittenOnce : Prop :=
  ∀ s t : State, step s = .next t →
    t.params = s.params ∧ ∀ c, s.config = some c → t.config = some c

/-- R63, the part on calls already made: none is dropped, reordered or rewritten afterwards: every step leaves the log it
found as the beginning of its own. Which calls are added is said by the statements on each operation. -/
def Obligations.LogOnlyGrows : Prop :=
  ∀ s t : State, step s = .next t → s.log <+: t.log

/-- R30, R38, R260: the block out of reset has no configuration, is idle and has put nothing on the bus; its parameters have the
values the spec gives (R8: R90, R91, R241, R210, R124, R61, and LEN_MAX at its default). -/
def Obligations.ResetState : Prop :=
  let s := State.reset
  s.config = none ∧ s.seq = .idle ∧ s.trace = [] ∧ s.response = none
    ∧ s.params.resetByte = 0x03#8 ∧ s.params.mode4Byte = 0x02#8
    ∧ s.params.tEn = 600 ∧ s.params.tInit1 = 5000 ∧ s.params.tInit3 = 150 ∧ s.params.tClear = 2000
    ∧ s.params.tScroll = 500000 ∧ s.params.tLed = 50000 ∧ s.params.nLed = 10
    ∧ s.params.initSingleNibble = false ∧ bases s.params.base = [0x00, 0x40, 0x14, 0x54] ∧ s.params.lenMax = none

/-- The block before CONSTRUCT meets the invariant (R38, R260; that its cursor registers hold 0 is the model's choice, log entry
8). -/
def Obligations.ResetMeetsTheInvariant : Prop := State.reset.Inv

/-- R9, R26, R29, R54, R60, R87: every step keeps the invariant: a legal configuration, the cursor on the display, a buffer of
one row, and nothing on the bus but single bytes of a legal shape to the one target. Before CONSTRUCT the invariant has the
cursor registers at 0, the model's choice (log entry 8). -/
def Obligations.StepKeepsTheInvariant : Prop :=
  ∀ s t : State, s.Inv → step s = .next t → t.Inv

/-- R87, R107: in a state that meets the invariant no transmitted byte has the read/write bit set, the backlight bit clear, or
enable clear with register-select set. -/
def Obligations.ForbiddenBytesAreNeverSent : Prop :=
  ∀ (s : State) (b : Byte), s.Inv → Event.tx b ∈ s.trace →
    b &&& s.params.rwBit = 0x00#8 ∧ b &&& s.params.blBit ≠ 0x00#8
      ∧ (b &&& s.params.enBit = 0x00#8 → b &&& s.params.rsBit = 0x00#8)

/-- R30, R31: an operation run to its end at once and the same operation accepted and then run line by line by the step give
the same state (log entry 14). `s'` is the state
acceptance leaves, with all the lines of the operation before it. -/
def Obligations.StepsRunTheWholeOperation : Prop :=
  ∀ (s t : State) (i : Instr), i.port = .hostOp → exec i s = .next t →
    ∃ (c : Configuration) (s' : State) (n : Nat),
      t.config = some c ∧ (∀ c', s.config = some c' → c' = c)
        ∧ s'.seq = .busy i [] (linesOf s.params c s.curRow i) ∧ s'.request = none ∧ s'.response = none
        ∧ s'.params = s.params ∧ s'.config = some c ∧ s'.curRow = s.curRow ∧ s'.curCol = s.curCol
        ∧ s'.replies = s.replies ∧ s'.trace = s.trace
        ∧ Host.Core.run Sys2Proof.core n s' = .next t

/-! ### Reading the trace back -/

/-- R50, R52, R60 (the checking aid, general knowledge GK5): a receiver reads from a PRINT that fits exactly the W characters of
the line, all with register-select set, left to right. -/
def Obligations.ReceiverReadsThePrintedLine : Prop :=
  ∀ (s t : State) (c : Configuration) (text : List Byte),
    s.readyAs c → s.transportReturns → controlBitsLegal s.params = true → text.length ≤ c.cols.toNat →
    text.length ≤ lenMax s.params c.cols → exec (.print text) s = .next t →
    ∃ events, t.trace = s.trace ++ events ∧ received s.params events = t.wbuf.map (fun code => (code, true))

/-- R60, R131 (the checking aid, general knowledge GK5, no part of the block): a receiver reads from INIT exactly the fixed sequence
of logical bytes, all with register-select clear, whatever the transport returned; the backlight-only byte yields nothing. With
INIT_SINGLE_NIBBLE on the four reset-phase bytes are read as their low nibbles, two to a byte. -/
def Obligations.ReceiverReadsTheInitSequence : Prop :=
  ∀ (s t : State) (c : Configuration),
    s.readyAs c → s.transportReturns → controlBitsLegal s.params = true → exec .init s = .next t →
    let p := s.params
    let low := fun v : Byte => v.extractLsb' 0 4
    let resetPhase : List Byte :=
      if p.initSingleNibble then [low p.resetByte ++ low p.resetByte, low p.resetByte ++ low p.mode4Byte]
      else [p.resetByte, p.resetByte, p.resetByte, p.mode4Byte]
    ∃ events, t.trace = s.trace ++ events ∧ received p events =
      (resetPhase ++ [p.functionSet, p.entryMode, p.clear, p.home, p.displayOn]).map (fun v => (v, false))
end

