-- ==== Sys2Proof/Laws/State.lean ====
section
/-! SUPPORT. One lemma per field per update of State: what each named update writes and what it leaves. -/

namespace Sys2Proof.Machine

/-! ### setLevel -/

@[simp] theorem State.setLevel_params (s : State) (level : Bool) : (s.setLevel level).params = s.params := rfl
@[simp] theorem State.setLevel_config (s : State) (level : Bool) : (s.setLevel level).config = s.config := rfl
@[simp] theorem State.setLevel_curRow (s : State) (level : Bool) : (s.setLevel level).curRow = s.curRow := rfl
@[simp] theorem State.setLevel_curCol (s : State) (level : Bool) : (s.setLevel level).curCol = s.curCol := rfl
@[simp] theorem State.setLevel_wbuf (s : State) (level : Bool) : (s.setLevel level).wbuf = s.wbuf := rfl
@[simp] theorem State.setLevel_seq (s : State) (level : Bool) : (s.setLevel level).seq = s.seq := rfl
@[simp] theorem State.setLevel_ledOutput (s : State) (level : Bool) : (s.setLevel level).ledOutput = s.ledOutput := rfl
@[simp] theorem State.setLevel_ledLevel (s : State) (level : Bool) : (s.setLevel level).ledLevel = level := rfl
@[simp] theorem State.setLevel_request (s : State) (level : Bool) : (s.setLevel level).request = s.request := rfl
@[simp] theorem State.setLevel_response (s : State) (level : Bool) : (s.setLevel level).response = s.response := rfl
@[simp] theorem State.setLevel_log (s : State) (level : Bool) : (s.setLevel level).log = s.log := rfl
@[simp] theorem State.setLevel_replies (s : State) (level : Bool) : (s.setLevel level).replies = s.replies := rfl
@[simp] theorem State.setLevel_fresh (s : State) (level : Bool) : (s.setLevel level).fresh = s.fresh := rfl

/-! ### setCursor -/

@[simp] theorem State.setCursor_params (s : State) (row col : Byte) : (s.setCursor row col).params = s.params := rfl
@[simp] theorem State.setCursor_config (s : State) (row col : Byte) : (s.setCursor row col).config = s.config := rfl
@[simp] theorem State.setCursor_curRow (s : State) (row col : Byte) : (s.setCursor row col).curRow = row := rfl
@[simp] theorem State.setCursor_curCol (s : State) (row col : Byte) : (s.setCursor row col).curCol = col := rfl
@[simp] theorem State.setCursor_wbuf (s : State) (row col : Byte) : (s.setCursor row col).wbuf = s.wbuf := rfl
@[simp] theorem State.setCursor_seq (s : State) (row col : Byte) : (s.setCursor row col).seq = s.seq := rfl
@[simp] theorem State.setCursor_ledOutput (s : State) (row col : Byte) : (s.setCursor row col).ledOutput = s.ledOutput := rfl
@[simp] theorem State.setCursor_ledLevel (s : State) (row col : Byte) : (s.setCursor row col).ledLevel = s.ledLevel := rfl
@[simp] theorem State.setCursor_request (s : State) (row col : Byte) : (s.setCursor row col).request = s.request := rfl
@[simp] theorem State.setCursor_response (s : State) (row col : Byte) : (s.setCursor row col).response = s.response := rfl
@[simp] theorem State.setCursor_log (s : State) (row col : Byte) : (s.setCursor row col).log = s.log := rfl
@[simp] theorem State.setCursor_replies (s : State) (row col : Byte) : (s.setCursor row col).replies = s.replies := rfl
@[simp] theorem State.setCursor_fresh (s : State) (row col : Byte) : (s.setCursor row col).fresh = s.fresh := rfl

/-! ### setBuffer -/

@[simp] theorem State.setBuffer_params (s : State) (codes : List Byte) : (s.setBuffer codes).params = s.params := rfl
@[simp] theorem State.setBuffer_config (s : State) (codes : List Byte) : (s.setBuffer codes).config = s.config := rfl
@[simp] theorem State.setBuffer_curRow (s : State) (codes : List Byte) : (s.setBuffer codes).curRow = s.curRow := rfl
@[simp] theorem State.setBuffer_curCol (s : State) (codes : List Byte) : (s.setBuffer codes).curCol = s.curCol := rfl
@[simp] theorem State.setBuffer_wbuf (s : State) (codes : List Byte) : (s.setBuffer codes).wbuf = codes := rfl
@[simp] theorem State.setBuffer_seq (s : State) (codes : List Byte) : (s.setBuffer codes).seq = s.seq := rfl
@[simp] theorem State.setBuffer_ledOutput (s : State) (codes : List Byte) : (s.setBuffer codes).ledOutput = s.ledOutput := rfl
@[simp] theorem State.setBuffer_ledLevel (s : State) (codes : List Byte) : (s.setBuffer codes).ledLevel = s.ledLevel := rfl
@[simp] theorem State.setBuffer_request (s : State) (codes : List Byte) : (s.setBuffer codes).request = s.request := rfl
@[simp] theorem State.setBuffer_response (s : State) (codes : List Byte) : (s.setBuffer codes).response = s.response := rfl
@[simp] theorem State.setBuffer_log (s : State) (codes : List Byte) : (s.setBuffer codes).log = s.log := rfl
@[simp] theorem State.setBuffer_replies (s : State) (codes : List Byte) : (s.setBuffer codes).replies = s.replies := rfl
@[simp] theorem State.setBuffer_fresh (s : State) (codes : List Byte) : (s.setBuffer codes).fresh = s.fresh := rfl

/-! ### called -/

@[simp] theorem State.called_params (s : State) (call : Call) : (s.called call).params = s.params := rfl
@[simp] theorem State.called_config (s : State) (call : Call) : (s.called call).config = s.config := rfl
@[simp] theorem State.called_curRow (s : State) (call : Call) : (s.called call).curRow = s.curRow := rfl
@[simp] theorem State.called_curCol (s : State) (call : Call) : (s.called call).curCol = s.curCol := rfl
@[simp] theorem State.called_wbuf (s : State) (call : Call) : (s.called call).wbuf = s.wbuf := rfl
@[simp] theorem State.called_seq (s : State) (call : Call) : (s.called call).seq = s.seq := rfl
@[simp] theorem State.called_ledOutput (s : State) (call : Call) : (s.called call).ledOutput = s.ledOutput := rfl
@[simp] theorem State.called_ledLevel (s : State) (call : Call) : (s.called call).ledLevel = s.ledLevel := rfl
@[simp] theorem State.called_request (s : State) (call : Call) : (s.called call).request = s.request := rfl
@[simp] theorem State.called_response (s : State) (call : Call) : (s.called call).response = s.response := rfl
@[simp] theorem State.called_log (s : State) (call : Call) : (s.called call).log = s.log ++ [call] := rfl
@[simp] theorem State.called_replies (s : State) (call : Call) : (s.called call).replies = s.replies := rfl
@[simp] theorem State.called_fresh (s : State) (call : Call) : (s.called call).fresh = s.fresh := rfl

/-! ### dropReply -/

@[simp] theorem State.dropReply_params (s : State) : (s.dropReply).params = s.params := by unfold State.dropReply; split <;> rfl
@[simp] theorem State.dropReply_config (s : State) : (s.dropReply).config = s.config := by unfold State.dropReply; split <;> rfl
@[simp] theorem State.dropReply_curRow (s : State) : (s.dropReply).curRow = s.curRow := by unfold State.dropReply; split <;> rfl
@[simp] theorem State.dropReply_curCol (s : State) : (s.dropReply).curCol = s.curCol := by unfold State.dropReply; split <;> rfl
@[simp] theorem State.dropReply_wbuf (s : State) : (s.dropReply).wbuf = s.wbuf := by unfold State.dropReply; split <;> rfl
@[simp] theorem State.dropReply_seq (s : State) : (s.dropReply).seq = s.seq := by unfold State.dropReply; split <;> rfl
@[simp] theorem State.dropReply_ledOutput (s : State) : (s.dropReply).ledOutput = s.ledOutput := by unfold State.dropReply; split <;> rfl
@[simp] theorem State.dropReply_ledLevel (s : State) : (s.dropReply).ledLevel = s.ledLevel := by unfold State.dropReply; split <;> rfl
@[simp] theorem State.dropReply_request (s : State) : (s.dropReply).request = s.request := by unfold State.dropReply; split <;> rfl
@[simp] theorem State.dropReply_response (s : State) : (s.dropReply).response = s.response := by unfold State.dropReply; split <;> rfl
@[simp] theorem State.dropReply_log (s : State) : (s.dropReply).log = s.log := by unfold State.dropReply; split <;> rfl

@[simp] theorem State.dropReply_replies (s : State) : s.dropReply.replies = s.replies.tail := by
  unfold State.dropReply; split <;> simp_all
@[simp] theorem State.dropReply_fresh (s : State) :
    s.dropReply.fresh = s.fresh + (1 - s.replies.length) := by
  unfold State.dropReply; split <;> simp_all

/-! ### record -/

@[simp] theorem State.record_params (s : State) (ret : Int) : (s.record ret).params = s.params := by unfold State.record; split <;> rfl
@[simp] theorem State.record_config (s : State) (ret : Int) : (s.record ret).config = s.config := by unfold State.record; split <;> rfl
@[simp] theorem State.record_curRow (s : State) (ret : Int) : (s.record ret).curRow = s.curRow := by unfold State.record; split <;> rfl
@[simp] theorem State.record_curCol (s : State) (ret : Int) : (s.record ret).curCol = s.curCol := by unfold State.record; split <;> rfl
@[simp] theorem State.record_wbuf (s : State) (ret : Int) : (s.record ret).wbuf = s.wbuf := by unfold State.record; split <;> rfl
@[simp] theorem State.record_ledOutput (s : State) (ret : Int) : (s.record ret).ledOutput = s.ledOutput := by unfold State.record; split <;> rfl
@[simp] theorem State.record_ledLevel (s : State) (ret : Int) : (s.record ret).ledLevel = s.ledLevel := by unfold State.record; split <;> rfl
@[simp] theorem State.record_request (s : State) (ret : Int) : (s.record ret).request = s.request := by unfold State.record; split <;> rfl
@[simp] theorem State.record_response (s : State) (ret : Int) : (s.record ret).response = s.response := by unfold State.record; split <;> rfl
@[simp] theorem State.record_log (s : State) (ret : Int) : (s.record ret).log = s.log := by unfold State.record; split <;> rfl
@[simp] theorem State.record_replies (s : State) (ret : Int) : (s.record ret).replies = s.replies := by unfold State.record; split <;> rfl
@[simp] theorem State.record_fresh (s : State) (ret : Int) : (s.record ret).fresh = s.fresh := by unfold State.record; split <;> rfl

/-! ### setRest -/

@[simp] theorem State.setRest_params (s : State) (rest : List Item) : (s.setRest rest).params = s.params := by unfold State.setRest; split <;> rfl
@[simp] theorem State.setRest_config (s : State) (rest : List Item) : (s.setRest rest).config = s.config := by unfold State.setRest; split <;> rfl
@[simp] theorem State.setRest_curRow (s : State) (rest : List Item) : (s.setRest rest).curRow = s.curRow := by unfold State.setRest; split <;> rfl
@[simp] theorem State.setRest_curCol (s : State) (rest : List Item) : (s.setRest rest).curCol = s.curCol := by unfold State.setRest; split <;> rfl
@[simp] theorem State.setRest_wbuf (s : State) (rest : List Item) : (s.setRest rest).wbuf = s.wbuf := by unfold State.setRest; split <;> rfl
@[simp] theorem State.setRest_ledOutput (s : State) (rest : List Item) : (s.setRest rest).ledOutput = s.ledOutput := by unfold State.setRest; split <;> rfl
@[simp] theorem State.setRest_ledLevel (s : State) (rest : List Item) : (s.setRest rest).ledLevel = s.ledLevel := by unfold State.setRest; split <;> rfl
@[simp] theorem State.setRest_request (s : State) (rest : List Item) : (s.setRest rest).request = s.request := by unfold State.setRest; split <;> rfl
@[simp] theorem State.setRest_response (s : State) (rest : List Item) : (s.setRest rest).response = s.response := by unfold State.setRest; split <;> rfl
@[simp] theorem State.setRest_log (s : State) (rest : List Item) : (s.setRest rest).log = s.log := by unfold State.setRest; split <;> rfl
@[simp] theorem State.setRest_replies (s : State) (rest : List Item) : (s.setRest rest).replies = s.replies := by unfold State.setRest; split <;> rfl
@[simp] theorem State.setRest_fresh (s : State) (rest : List Item) : (s.setRest rest).fresh = s.fresh := by unfold State.setRest; split <;> rfl

/-! ### complete -/

@[simp] theorem State.complete_params (s : State) : (s.complete).params = s.params := by unfold State.complete; split <;> rfl
@[simp] theorem State.complete_config (s : State) : (s.complete).config = s.config := by unfold State.complete; split <;> rfl
@[simp] theorem State.complete_curRow (s : State) : (s.complete).curRow = s.curRow := by unfold State.complete; split <;> rfl
@[simp] theorem State.complete_curCol (s : State) : (s.complete).curCol = s.curCol := by unfold State.complete; split <;> rfl
@[simp] theorem State.complete_wbuf (s : State) : (s.complete).wbuf = s.wbuf := by unfold State.complete; split <;> rfl
@[simp] theorem State.complete_ledOutput (s : State) : (s.complete).ledOutput = s.ledOutput := by unfold State.complete; split <;> rfl
@[simp] theorem State.complete_ledLevel (s : State) : (s.complete).ledLevel = s.ledLevel := by unfold State.complete; split <;> rfl
@[simp] theorem State.complete_request (s : State) : (s.complete).request = s.request := by unfold State.complete; split <;> rfl
@[simp] theorem State.complete_log (s : State) : (s.complete).log = s.log := by unfold State.complete; split <;> rfl
@[simp] theorem State.complete_replies (s : State) : (s.complete).replies = s.replies := by unfold State.complete; split <;> rfl
@[simp] theorem State.complete_fresh (s : State) : (s.complete).fresh = s.fresh := by unfold State.complete; split <;> rfl

@[simp] theorem State.complete_seq (s : State) : s.complete.seq = .idle := by
  unfold State.complete; split <;> simp_all

/-! ### accept -/

@[simp] theorem State.accept_params (s : State) (op : Instr) (items : List Item) : (s.accept op items).params = s.params := rfl
@[simp] theorem State.accept_config (s : State) (op : Instr) (items : List Item) : (s.accept op items).config = s.config := rfl
@[simp] theorem State.accept_curRow (s : State) (op : Instr) (items : List Item) : (s.accept op items).curRow = s.curRow := rfl
@[simp] theorem State.accept_curCol (s : State) (op : Instr) (items : List Item) : (s.accept op items).curCol = s.curCol := rfl
@[simp] theorem State.accept_wbuf (s : State) (op : Instr) (items : List Item) : (s.accept op items).wbuf = s.wbuf := rfl
@[simp] theorem State.accept_seq (s : State) (op : Instr) (items : List Item) : (s.accept op items).seq = .busy op [] items := rfl
@[simp] theorem State.accept_ledOutput (s : State) (op : Instr) (items : List Item) : (s.accept op items).ledOutput = s.ledOutput := rfl
@[simp] theorem State.accept_ledLevel (s : State) (op : Instr) (items : List Item) : (s.accept op items).ledLevel = s.ledLevel := rfl
@[simp] theorem State.accept_request (s : State) (op : Instr) (items : List Item) : (s.accept op items).request = none := rfl
@[simp] theorem State.accept_response (s : State) (op : Instr) (items : List Item) : (s.accept op items).response = none := rfl
@[simp] theorem State.accept_log (s : State) (op : Instr) (items : List Item) : (s.accept op items).log = s.log := rfl
@[simp] theorem State.accept_replies (s : State) (op : Instr) (items : List Item) : (s.accept op items).replies = s.replies := rfl
@[simp] theorem State.accept_fresh (s : State) (op : Instr) (items : List Item) : (s.accept op items).fresh = s.fresh := rfl

/-! ### setUp -/

@[simp] theorem State.setUp_params (s : State) (a : ConstructArgs) : (s.setUp a).params = s.params := rfl
@[simp] theorem State.setUp_config (s : State) (a : ConstructArgs) : (s.setUp a).config = some (configurationOf s.params a) := rfl
@[simp] theorem State.setUp_curRow (s : State) (a : ConstructArgs) : (s.setUp a).curRow = s.curRow := rfl
@[simp] theorem State.setUp_curCol (s : State) (a : ConstructArgs) : (s.setUp a).curCol = s.curCol := rfl
@[simp] theorem State.setUp_wbuf (s : State) (a : ConstructArgs) : (s.setUp a).wbuf = freeBuffer s.fresh a.columns.toNat := rfl
@[simp] theorem State.setUp_seq (s : State) (a : ConstructArgs) : (s.setUp a).seq = s.seq := rfl
@[simp] theorem State.setUp_ledOutput (s : State) (a : ConstructArgs) : (s.setUp a).ledOutput = true := rfl
@[simp] theorem State.setUp_ledLevel (s : State) (a : ConstructArgs) : (s.setUp a).ledLevel = Config.freeLevel s.fresh := rfl
@[simp] theorem State.setUp_request (s : State) (a : ConstructArgs) : (s.setUp a).request = s.request := rfl
@[simp] theorem State.setUp_response (s : State) (a : ConstructArgs) : (s.setUp a).response = s.response := rfl
@[simp] theorem State.setUp_log (s : State) (a : ConstructArgs) : (s.setUp a).log = s.log ++ [.initBus a.bus s.params.bitRate, .assignPins a.dataPin a.clkPin, .configureOutput s.params.ledPin] := rfl
@[simp] theorem State.setUp_replies (s : State) (a : ConstructArgs) : (s.setUp a).replies = s.replies := rfl
@[simp] theorem State.setUp_fresh (s : State) (a : ConstructArgs) : (s.setUp a).fresh = s.fresh + a.columns.toNat := rfl

/-! ### placeRequest -/

@[simp] theorem State.placeRequest_params (s : State) (bytes : List Byte) : (s.placeRequest bytes).params = s.params := rfl
@[simp] theorem State.placeRequest_config (s : State) (bytes : List Byte) : (s.placeRequest bytes).config = s.config := rfl
@[simp] theorem State.placeRequest_curRow (s : State) (bytes : List Byte) : (s.placeRequest bytes).curRow = s.curRow := rfl
@[simp] theorem State.placeRequest_curCol (s : State) (bytes : List Byte) : (s.placeRequest bytes).curCol = s.curCol := rfl
@[simp] theorem State.placeRequest_wbuf (s : State) (bytes : List Byte) : (s.placeRequest bytes).wbuf = s.wbuf := rfl
@[simp] theorem State.placeRequest_seq (s : State) (bytes : List Byte) : (s.placeRequest bytes).seq = .idle := rfl
@[simp] theorem State.placeRequest_ledOutput (s : State) (bytes : List Byte) : (s.placeRequest bytes).ledOutput = s.ledOutput := rfl
@[simp] theorem State.placeRequest_ledLevel (s : State) (bytes : List Byte) : (s.placeRequest bytes).ledLevel = s.ledLevel := rfl
@[simp] theorem State.placeRequest_request (s : State) (bytes : List Byte) : (s.placeRequest bytes).request = some bytes := rfl
@[simp] theorem State.placeRequest_response (s : State) (bytes : List Byte) : (s.placeRequest bytes).response = s.response := rfl
@[simp] theorem State.placeRequest_log (s : State) (bytes : List Byte) : (s.placeRequest bytes).log = s.log := rfl
@[simp] theorem State.placeRequest_replies (s : State) (bytes : List Byte) : (s.placeRequest bytes).replies = s.replies := rfl
@[simp] theorem State.placeRequest_fresh (s : State) (bytes : List Byte) : (s.placeRequest bytes).fresh = s.fresh := rfl

/-! ### The operation in progress -/

theorem State.record_seq_busy (s : State) (ret : Int) (op : Instr) (results : List TxResult) (rest : List Item)
    (h : s.seq = .busy op results rest) :
    (s.record ret).seq = .busy op (results ++ [txResult results.length ret]) rest := by
  simp [State.record, h]

theorem State.setRest_seq_busy (s : State) (op : Instr) (results : List TxResult) (rest rest' : List Item)
    (h : s.seq = .busy op results rest) : (s.setRest rest').seq = .busy op results rest' := by
  simp [State.setRest, h]

theorem State.complete_response_busy (s : State) (op : Instr) (results : List TxResult) (rest : List Item)
    (h : s.seq = .busy op results rest) : s.complete.response = some (respond results) := by
  simp [State.complete, h]

end Sys2Proof.Machine
end

