-- ==== Sys2Proof/Laws/Ops.lean ====
section
/-! SUPPORT. For each shared operation, what it can do, said once: one transmission, the bottom steps, the lines of an
operation, one line of the operation in progress. -/

namespace Sys2Proof.Machine

/-! ### What bottom steps do, read off the list -/

/-- The event a bottom step makes. -/
def Prim.event : Prim → Option Event
  | .tx b => some (.tx b)
  | .delay t => some (.delay t)
  | .setPin level => some (.pin level)
  | .setCursor _ _ => none

/-- The events bottom steps make, in order. -/
def primEvents (qs : List Prim) : List Event := qs.filterMap Prim.event

/-- The cursor registers after a bottom step. -/
def Prim.cursor (rc : Byte × Byte) : Prim → Byte × Byte
  | .tx _ => rc
  | .delay _ => rc
  | .setPin _ => rc
  | .setCursor row col => (row, col)

/-- The LED level after a bottom step. -/
def Prim.level (l : Bool) : Prim → Bool
  | .tx _ => l
  | .delay _ => l
  | .setPin level => level
  | .setCursor _ _ => l

@[simp] theorem primEvents_nil : primEvents [] = [] := rfl
@[simp] theorem primEvents_append (a b : List Prim) : primEvents (a ++ b) = primEvents a ++ primEvents b := by
  simp [primEvents]

/-! ### One transmission -/

theorem tx_never (c : Configuration) (b : Byte) (s : State) (rs : List Reply) (h : s.replies = .never :: rs) :
    tx c b s = none := by simp [tx, State.nextReply, h]

/-- A transmission either waits, and then the transport has not returned, or makes its call and records its result. -/
theorem tx_cases (c : Configuration) (b : Byte) (s : State) :
    (tx c b s = none ∧ s.nextReply = .never) ∨
    ∃ ret, s.nextReply = .returns ret ∧
      tx c b s = some ((s.dropReply.called (.writeBytes c.bus c.i2cAddr [b] 1)).record ret) := by
  unfold tx
  cases h : s.nextReply with
  | never => exact .inl ⟨rfl, rfl⟩
  | returns ret => exact .inr ⟨ret, rfl, rfl⟩

theorem nextReply_ne_never (s : State) (h : s.transportReturns) : s.nextReply ≠ .never := by
  unfold State.nextReply
  split
  · rename_i r rs hr
    intro e
    exact h (by simp [hr, e])
  · simp

/-! ### One bottom step -/

/-- What a finished bottom step leaves alone, whatever it is. -/
theorem prim_frame {c : Configuration} {q : Prim} {s s' : State} (h : prim c q s = some s') :
    s'.params = s.params ∧ s'.config = s.config ∧ s'.wbuf = s.wbuf ∧ s'.ledOutput = s.ledOutput
      ∧ s'.request = s.request ∧ s'.response = s.response
      ∧ s'.log = s.log ++ (q.event.map (Event.call c)).toList := by
  cases q with
  | tx b =>
    rcases tx_cases c b s with ⟨h', -⟩ | ⟨ret, -, h'⟩
    · simp [prim, h'] at h
    · simp only [prim, h', Option.some.injEq] at h
      subst h
      simp [Prim.event, Event.call]
  | delay t => simp only [prim, Option.some.injEq] at h; subst h; simp [Prim.event, Event.call]
  | setPin l => simp only [prim, Option.some.injEq] at h; subst h; simp [Prim.event, Event.call]
  | setCursor r k => simp only [prim, Option.some.injEq] at h; subst h; simp [Prim.event]

theorem prim_cursor_level {c : Configuration} {q : Prim} {s s' : State} (h : prim c q s = some s') :
    (s'.curRow, s'.curCol) = q.cursor (s.curRow, s.curCol) ∧ s'.ledLevel = q.level s.ledLevel := by
  cases q with
  | tx b =>
    rcases tx_cases c b s with ⟨h', -⟩ | ⟨ret, -, h'⟩
    · simp [prim, h'] at h
    · simp only [prim, h', Option.some.injEq] at h
      subst h
      simp [Prim.cursor, Prim.level]
  | delay t => simp only [prim, Option.some.injEq] at h; subst h; simp [Prim.cursor, Prim.level]
  | setPin l => simp only [prim, Option.some.injEq] at h; subst h; simp [Prim.cursor, Prim.level]
  | setCursor r k => simp only [prim, Option.some.injEq] at h; subst h; simp [Prim.cursor, Prim.level]

/-- A bottom step of an operation in progress adds at most one result and leaves the operation where it is. -/
theorem prim_seq {c : Configuration} {q : Prim} {s s' : State} {op : Instr} {results : List TxResult} {rest : List Item}
    (hs : s.seq = .busy op results rest) (h : prim c q s = some s') :
    ∃ more, s'.seq = .busy op (results ++ more) rest := by
  cases q with
  | tx b =>
    rcases tx_cases c b s with ⟨h', -⟩ | ⟨ret, -, h'⟩
    · simp [prim, h'] at h
    · simp only [prim, h', Option.some.injEq] at h
      subst h
      exact ⟨[txResult results.length ret], State.record_seq_busy _ _ _ _ _ (by simpa using hs)⟩
  | delay t => simp only [prim, Option.some.injEq] at h; subst h; exact ⟨[], by simpa using hs⟩
  | setPin l => simp only [prim, Option.some.injEq] at h; subst h; exact ⟨[], by simpa using hs⟩
  | setCursor r k => simp only [prim, Option.some.injEq] at h; subst h; exact ⟨[], by simpa using hs⟩

/-! ### Bottom steps in order -/

theorem runPrims_append (c : Configuration) (a b : List Prim) (s : State) :
    runPrims c (a ++ b) s =
      match (runPrims c a s).2 with
      | [] => runPrims c b (runPrims c a s).1
      | q :: qs => ((runPrims c a s).1, (q :: qs) ++ b) := by
  induction a generalizing s with
  | nil => rfl
  | cons q qs ih =>
    simp only [List.cons_append, runPrims]
    cases h : prim c q s with
    | none => rfl
    | some s' => simpa using ih s'

/-- A property every step of the list keeps is kept by running it, and what is left is the list's end. -/
theorem runPrims_induct (c : Configuration) (P : State → Prop) (qs : List Prim)
    (hstep : ∀ q ∈ qs, ∀ s s', P s → prim c q s = some s' → P s') (s : State) (hs : P s) :
    P (runPrims c qs s).1 ∧ (runPrims c qs s).2 <:+ qs := by
  induction qs generalizing s with
  | nil => exact ⟨hs, List.suffix_refl _⟩
  | cons q qs ih =>
    simp only [runPrims]
    cases h : prim c q s with
    | none => exact ⟨hs, List.suffix_refl _⟩
    | some s' =>
      have := ih (fun q' hq' => hstep q' (List.mem_cons_of_mem _ hq')) s' (hstep q List.mem_cons_self s s' hs h)
      exact ⟨this.1, this.2.trans (List.suffix_cons _ _)⟩

/-- What bottom steps leave alone, finished or waiting. -/
theorem runPrims_frame (c : Configuration) (qs : List Prim) (s : State) :
    let t := (runPrims c qs s).1
    t.params = s.params ∧ t.config = s.config ∧ t.wbuf = s.wbuf ∧ t.ledOutput = s.ledOutput
      ∧ t.request = s.request ∧ t.response = s.response ∧ s.log <+: t.log := by
  refine (runPrims_induct c (fun t => t.params = s.params ∧ t.config = s.config ∧ t.wbuf = s.wbuf
      ∧ t.ledOutput = s.ledOutput ∧ t.request = s.request ∧ t.response = s.response ∧ s.log <+: t.log) qs ?_ s
      ⟨rfl, rfl, rfl, rfl, rfl, rfl, List.prefix_refl _⟩).1
  rintro q - u u' ⟨h1, h2, h3, h4, h5, h6, h7⟩ h
  obtain ⟨g1, g2, g3, g4, g5, g6, g7⟩ := prim_frame h
  exact ⟨g1.trans h1, g2.trans h2, g3.trans h3, g4.trans h4, g5.trans h5, g6.trans h6,
    h7.trans (g7 ▸ List.prefix_append _ _)⟩

theorem runPrims_seq (c : Configuration) (qs : List Prim) (s : State) (op : Instr) (results : List TxResult)
    (rest : List Item) (hs : s.seq = .busy op results rest) :
    ∃ more, (runPrims c qs s).1.seq = .busy op (results ++ more) rest := by
  refine (runPrims_induct c (fun t => ∃ more, t.seq = .busy op (results ++ more) rest) qs ?_ s ⟨[], by simpa using hs⟩).1
  rintro q - u u' ⟨more, hu⟩ h
  obtain ⟨more', h'⟩ := prim_seq hu h
  exact ⟨more ++ more', by simpa using h'⟩

/-! ### The results of the coming transmissions -/

@[simp] theorem resultsOf_zero (rs : List Reply) (f k : Nat) : resultsOf rs f k 0 = [] := by
  cases rs with
  | nil => rfl
  | cons r rs => cases r <;> rfl

theorem resultsOf_length (rs : List Reply) (f k n : Nat) (h : Reply.never ∉ rs) : (resultsOf rs f k n).length = n := by
  induction n generalizing rs f k with
  | zero => simp
  | succ n ih =>
    cases rs with
    | nil => simp [resultsOf, ih]
    | cons r rs =>
      cases r with
      | never => simp at h
      | returns ret => simp [resultsOf, ih rs f (k + 1) (fun h' => h (List.mem_cons_of_mem _ h'))]

theorem resultsOf_append (rs : List Reply) (f k m n : Nat) (h : Reply.never ∉ rs) :
    resultsOf rs f k (m + n) =
      resultsOf rs f k m ++ resultsOf (rs.drop m) (f + (m - rs.length)) (k + m) n := by
  induction m generalizing rs f k with
  | zero => simp
  | succ m ih =>
    cases rs with
    | nil =>
      have := ih [] (f + 1) (k + 1) (by simp)
      simp only [List.length_nil, Nat.sub_zero, List.drop_nil] at this ⊢
      rw [Nat.add_right_comm, resultsOf, this]
      simp [resultsOf, Nat.add_assoc, Nat.add_comm 1]
    | cons r rs =>
      cases r with
      | never => simp at h
      | returns ret =>
        have := ih rs f (k + 1) (fun h' => h (List.mem_cons_of_mem _ h'))
        rw [Nat.add_right_comm, resultsOf, this]
        simp [resultsOf, Nat.add_assoc, Nat.add_comm 1]

/-! ### Bottom steps when the transport returns -/

/-- The state after bottom steps that all finished. -/
def State.afterPrims (s : State) (c : Configuration) (op : Instr) (results : List TxResult) (rest : List Item)
    (qs : List Prim) : State :=
  { s.afterEvents c (primEvents qs) with
    curRow := (qs.foldl Prim.cursor (s.curRow, s.curCol)).1
    curCol := (qs.foldl Prim.cursor (s.curRow, s.curCol)).2
    ledLevel := qs.foldl Prim.level s.ledLevel
    seq := .busy op (results ++ resultsOf s.replies s.fresh results.length (txCount (primEvents qs))) rest }

theorem afterPrims_nil (s : State) (c : Configuration) (op : Instr) (results : List TxResult) (rest : List Item)
    (hs : s.seq = .busy op results rest) : s.afterPrims c op results rest [] = s := by
  cases s
  simp_all [State.afterPrims, State.afterEvents, txCount, txBytes]

@[simp] theorem txCount_nil : txCount [] = 0 := rfl
@[simp] theorem txCount_cons_tx (b : Byte) (es : List Event) : txCount (.tx b :: es) = txCount es + 1 := by
  simp [txCount, txBytes, Event.byte]
@[simp] theorem txCount_cons_delay (t : Nat) (es : List Event) : txCount (.delay t :: es) = txCount es := rfl
@[simp] theorem txCount_cons_pin (l : Bool) (es : List Event) : txCount (.pin l :: es) = txCount es := rfl
@[simp] theorem txCount_append (a b : List Event) : txCount (a ++ b) = txCount a + txCount b := by
  simp [txCount, txBytes]

@[simp] theorem duration_nil : duration [] = 0 := rfl
@[simp] theorem duration_cons (e : Event) (es : List Event) : duration (e :: es) = e.duration + duration es := by
  simp [duration]
@[simp] theorem duration_append (a b : List Event) : duration (a ++ b) = duration a + duration b := by
  simp [duration]
@[simp] theorem event_call (c : Configuration) (e : Event) : (e.call c).event = some e := by
  cases e <;> rfl

/-- The trace grows by exactly the events whose calls are logged. -/
theorem trace_afterEvents (s : State) (c : Configuration) (events : List Event) :
    (s.afterEvents c events).trace = s.trace ++ events := by
  simp [State.trace, State.afterEvents, List.filterMap_map]

@[simp] theorem primEvents_cons_tx (b : Byte) (qs : List Prim) : primEvents (.tx b :: qs) = .tx b :: primEvents qs := rfl
@[simp] theorem primEvents_cons_delay (t : Nat) (qs : List Prim) :
    primEvents (.delay t :: qs) = .delay t :: primEvents qs := rfl
@[simp] theorem primEvents_cons_setPin (l : Bool) (qs : List Prim) :
    primEvents (.setPin l :: qs) = .pin l :: primEvents qs := rfl
@[simp] theorem primEvents_cons_setCursor (row col : Byte) (qs : List Prim) :
    primEvents (.setCursor row col :: qs) = primEvents qs := rfl

/-- A transmission that returned, then the rest. -/
theorem afterPrims_cons_tx (s : State) (c : Configuration) (op : Instr) (results : List TxResult) (rest : List Item)
    (b : Byte) (qs : List Prim) (ret : Int) (h : s.nextReply = .returns ret) :
    ((s.dropReply.called (.writeBytes c.bus c.i2cAddr [b] 1)).record ret).afterPrims c op
        (results ++ [txResult results.length ret]) rest qs =
      s.afterPrims c op results rest (.tx b :: qs) := by
  unfold State.nextReply at h
  cases hrep : s.replies with
  | nil =>
    simp only [hrep, Reply.returns.injEq] at h
    subst h
    simp [State.afterPrims, State.afterEvents, hrep, resultsOf, Event.call, Prim.cursor, Prim.level]
    omega
  | cons r rs =>
    simp only [hrep] at h
    subst h
    simp [State.afterPrims, State.afterEvents, hrep, resultsOf, Event.call, Prim.cursor, Prim.level]

/-- Bottom steps when every write returns: all of them finish, and the state is the one read off the list. -/
theorem runPrims_returns (c : Configuration) (qs : List Prim) (s : State) (op : Instr) (results : List TxResult)
    (rest : List Item) (hs : s.seq = .busy op results rest) (hr : s.transportReturns) :
    runPrims c qs s = (s.afterPrims c op results rest qs, []) := by
  induction qs generalizing s results with
  | nil => simp [runPrims, afterPrims_nil s c op results rest hs]
  | cons q qs ih =>
    cases q with
    | tx b =>
      rcases tx_cases c b s with ⟨-, h⟩ | ⟨ret, h, h'⟩
      · exact absurd h (nextReply_ne_never s hr)
      · simp only [runPrims, prim, h']
        have hs' := State.record_seq_busy (s.dropReply.called (.writeBytes c.bus c.i2cAddr [b] 1)) ret op results rest
          (by simpa using hs)
        have hr' : ((s.dropReply.called (.writeBytes c.bus c.i2cAddr [b] 1)).record ret).transportReturns := by
          simp only [State.transportReturns, State.record_replies, State.called_replies, State.dropReply_replies]
          exact fun hm => hr (List.mem_of_mem_tail hm)
        rw [ih _ _ hs' hr']
        rw [afterPrims_cons_tx s c op results rest b qs ret h]
    | delay t =>
      simp only [runPrims, prim]
      rw [ih (s.called (.sleep t)) results (by simpa using hs) hr]
      simp [State.afterPrims, State.afterEvents, Prim.cursor, Prim.level, Event.call]
    | setPin l =>
      simp only [runPrims, prim]
      rw [ih ((s.called (.setPin c.ledPin l)).setLevel l) results (by simpa using hs) hr]
      simp [State.afterPrims, State.afterEvents, Prim.cursor, Prim.level, Event.call]
    | setCursor row col =>
      simp only [runPrims, prim]
      rw [ih (s.setCursor row col) results (by simpa using hs) hr]
      simp [State.afterPrims, State.afterEvents, Prim.cursor, Prim.level]

@[simp] theorem afterPrims_params (s : State) (c : Configuration) (op : Instr) (results : List TxResult) (rest : List Item)
    (qs : List Prim) : (s.afterPrims c op results rest qs).params = s.params := rfl
@[simp] theorem afterPrims_seq (s : State) (c : Configuration) (op : Instr) (results : List TxResult) (rest : List Item)
    (qs : List Prim) : (s.afterPrims c op results rest qs).seq =
      .busy op (results ++ resultsOf s.replies s.fresh results.length (txCount (primEvents qs))) rest := rfl

theorem afterPrims_transportReturns (s : State) (c : Configuration) (op : Instr) (results : List TxResult)
    (rest : List Item) (qs : List Prim) (hr : s.transportReturns) :
    (s.afterPrims c op results rest qs).transportReturns :=
  fun h => hr (List.mem_of_mem_drop h)

theorem afterPrims_append (s : State) (c : Configuration) (op : Instr) (results : List TxResult) (rest : List Item)
    (a b : List Prim) (hr : s.transportReturns) :
    (s.afterPrims c op results rest a).afterPrims c op
        (results ++ resultsOf s.replies s.fresh results.length (txCount (primEvents a))) rest b =
      s.afterPrims c op results rest (a ++ b) := by
  have hlen := resultsOf_length s.replies s.fresh results.length (txCount (primEvents a)) hr
  have happ := resultsOf_append s.replies s.fresh results.length (txCount (primEvents a)) (txCount (primEvents b)) hr
  simp only [State.afterPrims, State.afterEvents, primEvents_append, txCount_append, List.foldl_append, List.map_append,
    List.append_assoc, List.drop_drop, List.length_append, hlen, happ]
  simp only [State.mk.injEq, true_and, List.length_drop]
  omega

/-! ### Lines of an operation -/

theorem complete_afterPrims (s : State) (c : Configuration) (op : Instr) (results : List TxResult) (rest : List Item)
    (qs : List Prim) :
    (s.afterPrims c op results rest qs).complete =
      { s.afterPrims c op results rest qs with
        seq := .idle
        response := some (respond
          (results ++ resultsOf s.replies s.fresh results.length (txCount (primEvents qs)))) } := rfl

/-- Lines of pseudocode when every write returns: the operation is complete, and its bottom steps are those of its lines in
order. -/
theorem runItems_returns (c : Configuration) (items : List Item) (s : State) (op : Instr) (results : List TxResult)
    (rest : List Item) (hs : s.seq = .busy op results rest) (hr : s.transportReturns) :
    runItems c items s = (s.afterPrims c op results rest (items.flatMap (itemPrims s.params))).complete := by
  induction items generalizing s results with
  | nil => simp [runItems, afterPrims_nil s c op results rest hs]
  | cons it its ih =>
    simp only [runItems, runPrims_returns c _ s op results rest hs hr, List.flatMap_cons]
    rw [ih _ _ (afterPrims_seq ..) (afterPrims_transportReturns _ _ _ _ _ _ hr), afterPrims_append _ _ _ _ _ _ _ hr]
    rfl

/-- One line of the operation in progress when every write returns. -/
theorem advance_returns (c : Configuration) (qs : List Prim) (rest : List Item) (s : State) (op : Instr)
    (results : List TxResult) (rest' : List Item) (hs : s.seq = .busy op results rest') (hr : s.transportReturns) :
    advance c qs rest s = (s.afterPrims c op results rest' qs).arriveAt rest := by
  simp [advance, runPrims_returns c qs s op results rest' hs hr]

/-- An operation that is accepted and whose writes return. -/
theorem perform_returns (c : Configuration) (op : Instr) (items : List Item) (s : State) (hr : s.transportReturns) :
    perform c op items s =
      .next { s.afterOperation c (primEvents (items.flatMap (itemPrims s.params))) with
        curRow := ((items.flatMap (itemPrims s.params)).foldl Prim.cursor (s.curRow, s.curCol)).1
        curCol := ((items.flatMap (itemPrims s.params)).foldl Prim.cursor (s.curRow, s.curCol)).2
        ledLevel := (items.flatMap (itemPrims s.params)).foldl Prim.level s.ledLevel } := by
  unfold perform
  rw [runItems_returns c items (s.accept op items) op [] items rfl hr, complete_afterPrims]
  rfl

/-- What lines of pseudocode leave alone, finished or waiting. -/
theorem runItems_frame (c : Configuration) (items : List Item) (s : State) :
    let t := runItems c items s
    t.params = s.params ∧ t.config = s.config ∧ t.wbuf = s.wbuf ∧ t.ledOutput = s.ledOutput
      ∧ t.request = s.request ∧ s.log <+: t.log := by
  induction items generalizing s with
  | nil => simp [runItems]
  | cons it its ih =>
    obtain ⟨h1, h2, h3, h4, h5, -, h7⟩ := runPrims_frame c (itemPrims s.params it) s
    simp only [runItems]
    split
    · obtain ⟨g1, g2, g3, g4, g5, g7⟩ := ih (runPrims c (itemPrims s.params it) s).1
      exact ⟨g1.trans h1, g2.trans h2, g3.trans h3, g4.trans h4, g5.trans h5, h7.trans g7⟩
    · simp [h1, h2, h3, h4, h5, h7]

/-- What one line leaves alone, finished or waiting. -/
theorem advance_frame (c : Configuration) (qs : List Prim) (rest : List Item) (s : State) :
    let t := advance c qs rest s
    t.params = s.params ∧ t.config = s.config ∧ t.wbuf = s.wbuf ∧ t.ledOutput = s.ledOutput
      ∧ t.request = s.request ∧ s.log <+: t.log := by
  obtain ⟨h1, h2, h3, h4, h5, -, h7⟩ := runPrims_frame c qs s
  simp only [advance, State.arriveAt]
  split <;> simp [h1, h2, h3, h4, h5, h7]

/-- A property that every finished bottom step of the lines keeps, and that does not look at the operation's position or
response, is kept by the lines. -/
theorem runItems_induct (c : Configuration) (P : State → Prop) (items : List Item)
    (hpos : ∀ s rest, P s → P (s.setRest rest)) (hdone : ∀ s, P s → P s.complete) (p : Params)
    (hp : ∀ s, P s → s.params = p)
    (hstep : ∀ it ∈ items, ∀ q ∈ itemPrims p it, ∀ s s', P s → prim c q s = some s' → P s') (s : State) (hs : P s) :
    P (runItems c items s) := by
  induction items generalizing s with
  | nil => exact hdone s hs
  | cons it its ih =>
    have h := (runPrims_induct c P (itemPrims s.params it)
      (fun q hq => hstep it List.mem_cons_self q (hp s hs ▸ hq)) s hs).1
    simp only [runItems]
    split
    · exact ih (fun it' h' => hstep it' (List.mem_cons_of_mem _ h')) _ h
    · exact hpos _ _ h

end Sys2Proof.Machine
end

