-- ==== Sys2Proof/Laws/Exec.lean ====
section
/-! SUPPORT. What an instruction and a step can do, said once: if one answers a next state, it is one of these cases. -/

namespace Sys2Proof.Machine

/-- The lines an accepted host operation runs, and the state it runs them from: one case per operation. -/
inductive Accepted (s : State) : Instr → Configuration → State → List Item → Prop where
  | construct (args : Option ConstructArgs) (hc : s.config = none)
      (hl : configurationLegal s.params (constructArgs s.params args) = true) :
      Accepted s (.construct args) (configurationOf s.params (constructArgs s.params args))
        (s.setUp (constructArgs s.params args)) (initItems s.params)
  | init (c : Configuration) (hc : s.config = some c) : Accepted s .init c s (initItems s.params)
  | printFit (c : Configuration) (text : List Byte) (hc : s.config = some c) (hl : text.length ≤ c.cols.toNat)
      (hm : text.length ≤ lenMax s.params c.cols) :
      Accepted s (.print text) c (s.setBuffer (padded s.params c.cols text))
        (characterItems (padded s.params c.cols text))
  | printScroll (c : Configuration) (text : List Byte) (hc : s.config = some c) (hl : c.cols.toNat < text.length)
      (hm : text.length ≤ lenMax s.params c.cols) :
      Accepted s (.print text) c s (scrollItems s.params c s.curRow text)
  | moveCursor (c : Configuration) (row col : Byte) (hc : s.config = some c) :
      Accepted s (.moveCursor row col) c s (moveCursorItems c row col)
  | shiftLeft (c : Configuration) (hc : s.config = some c) : Accepted s .shiftLeft c s [.op .cmdShiftLeft]
  | shiftRight (c : Configuration) (hc : s.config = some c) : Accepted s .shiftRight c s [.op .cmdShiftRight]
  | flashLed (c : Configuration) (hc : s.config = some c) : Accepted s .flashLed c s (flashItems s.params)

theorem whenReady_next {s t : State} {k : Configuration → Result} (h : s.whenReady k = .next t) :
    s.seq = .idle ∧ ∃ c, s.config = some c ∧ k c = .next t := by
  unfold State.whenReady at h
  split at h
  · cases h
  · split at h
    · cases h
    · exact ⟨‹_›, _, ‹_›, h⟩

theorem perform_next {c : Configuration} {op : Instr} {items : List Item} {s t : State}
    (h : perform c op items s = .next t) : t = runItems c items (s.accept op items) := by
  cases h; rfl

/-- A host operation that answers a next state was accepted by an idle block and run to its end. -/
theorem exec_hostOp_next {i : Instr} {s t : State} (hp : i.port = .hostOp) (h : exec i s = .next t) :
    s.seq = .idle ∧ ∃ c s₀ items, Accepted s i c s₀ items ∧ t = runItems c items (s₀.accept i items) := by
  cases i with
  | construct args =>
    simp only [exec, execConstruct] at h
    split at h
    · cases h
    · split at h
      · cases h
      · split at h
        · exact ⟨‹_›, _, _, _, .construct args ‹_› ‹_›, perform_next h⟩
        · cases h
  | init =>
    obtain ⟨hs, c, hc, h⟩ := whenReady_next h
    exact ⟨hs, c, _, _, .init c hc, perform_next h⟩
  | print text =>
    obtain ⟨hs, c, hc, h⟩ := whenReady_next h
    split at h
    · cases h
    · split at h
      · exact ⟨hs, c, _, _, .printFit c text hc ‹_› (by omega), perform_next h⟩
      · exact ⟨hs, c, _, _, .printScroll c text hc (by omega) (by omega), perform_next h⟩
  | moveCursor row col =>
    obtain ⟨hs, c, hc, h⟩ := whenReady_next h
    exact ⟨hs, c, _, _, .moveCursor c row col hc, perform_next h⟩
  | shiftLeft =>
    obtain ⟨hs, c, hc, h⟩ := whenReady_next h
    exact ⟨hs, c, _, _, .shiftLeft c hc, perform_next h⟩
  | shiftRight =>
    obtain ⟨hs, c, hc, h⟩ := whenReady_next h
    exact ⟨hs, c, _, _, .shiftRight c hc, perform_next h⟩
  | flashLed =>
    obtain ⟨hs, c, hc, h⟩ := whenReady_next h
    exact ⟨hs, c, _, _, .flashLed c hc, perform_next h⟩
  | reserved7 => cases h
  | resetByte => cases hp
  | mode4Byte => cases hp
  | cmdFunctionSet => cases hp
  | cmdEntryMode => cases hp
  | cmdClear => cases hp
  | cmdHome => cases hp
  | cmdDisplayOn => cases hp
  | cmdSetDdram address => cases hp
  | cmdShiftLeft => cases hp
  | cmdShiftRight => cases hp
  | character code => cases hp
  | busHighCommand data => cases hp
  | busHighCharacter data => cases hp
  | busLowPhase data => cases hp
  | busBacklightOnly => cases hp

/-- Logical and transmitted bytes all run as `perOperation`. -/
theorem exec_inner {i : Instr} {s : State} (hp : i.port ≠ .hostOp) : exec i s = perOperation i s := by
  cases i with
  | construct args => exact absurd rfl hp
  | init => exact absurd rfl hp
  | print text => exact absurd rfl hp
  | moveCursor row col => exact absurd rfl hp
  | shiftLeft => exact absurd rfl hp
  | shiftRight => exact absurd rfl hp
  | flashLed => exact absurd rfl hp
  | reserved7 => exact absurd rfl hp
  | resetByte => rfl
  | mode4Byte => rfl
  | cmdFunctionSet => rfl
  | cmdEntryMode => rfl
  | cmdClear => rfl
  | cmdHome => rfl
  | cmdDisplayOn => rfl
  | cmdSetDdram address => rfl
  | cmdShiftLeft => rfl
  | cmdShiftRight => rfl
  | character code => rfl
  | busHighCommand data => rfl
  | busHighCharacter data => rfl
  | busLowPhase data => rfl
  | busBacklightOnly => rfl

/-- A logical or transmitted byte that answers a next state was run for an operation in progress. -/
theorem perOperation_next {i : Instr} {s t : State} (h : perOperation i s = .next t) :
    ∃ op results rest c, s.seq = .busy op results rest ∧ s.config = some c ∧ t = advance c (prims s.params i) rest s := by
  unfold perOperation at h
  split at h
  · cases h
  · split at h
    · cases h
    · cases h
      exact ⟨_, _, _, _, ‹_›, ‹_›, rfl⟩

/-- What a step can do. -/
inductive Stepped (s t : State) : Prop where
  /-- It ran a request. -/
  | request (bytes : List Byte) (i : Instr) (hr : s.request = some bytes) (hd : decode s.params .hostOp bytes = .ok i)
      (h : exec i s = .next t)
  /-- It waited for one. -/
  | wait (hr : s.request = none) (hs : s.seq = .idle) (h : t = s)
  /-- The operation in progress had nothing left. -/
  | done (op : Instr) (results : List TxResult) (hr : s.request = none) (hs : s.seq = .busy op results [])
      (h : t = s.complete)
  /-- It ran an instruction of the operation in progress. -/
  | line (op i : Instr) (results : List TxResult) (rest : List Item) (hr : s.request = none)
      (hs : s.seq = .busy op results (.op i :: rest)) (h : exec i (s.setRest rest) = .next t)
  /-- It ran a bottom step of the operation in progress. -/
  | prim (op : Instr) (q : Prim) (results : List TxResult) (rest : List Item) (c : Configuration) (hr : s.request = none)
      (hs : s.seq = .busy op results (.prim q :: rest)) (hc : s.config = some c) (h : t = advance c [q] rest s)

theorem step_next {s t : State} (h : step s = .next t) : Stepped s t := by
  unfold step State.fetched at h
  cases hr : s.request with
  | some bytes =>
    simp only [hr, Option.map_some] at h
    split at h
    · rename_i i hd
      exact .request bytes i hr (Option.some.inj hd) h
    · cases h
    · rename_i hd; cases hd
  | none =>
    simp only [hr, Option.map_none] at h
    split at h
    · rename_i hs; cases h; exact .wait hr hs rfl
    · rename_i hs; cases h; exact .done _ _ hr hs rfl
    · rename_i hs; exact .line _ _ _ _ hr hs h
    · rename_i hs
      split at h
      · cases h
      · rename_i hc; cases h; exact .prim _ _ _ _ _ hr hs hc rfl

end Sys2Proof.Machine
end

