-- ==== Sys2Proof/Laws/Operands.lean ====
section
/-! SUPPORT. What the lists of Machine/Operands.lean hold: which bottom steps a byte is made of, which lines an operation is
made of. -/

namespace Sys2Proof.Machine

/-! ### Bytes -/

/-- A bottom step that is no write of the cursor registers. -/
def Prim.keepsCursor (q : Prim) : Prop := ∀ rc, q.cursor rc = rc

/-- A bottom step that is no change of the LED level. -/
def Prim.keepsLevel (q : Prim) : Prop := ∀ l, q.level l = l

theorem sendNibble_keeps (p : Params) (n : Byte) : ∀ q ∈ sendNibble p n, q.keepsCursor ∧ q.keepsLevel := by
  simp [sendNibble, Prim.keepsCursor, Prim.keepsLevel, Prim.cursor, Prim.level]

theorem sendByte_keeps (p : Params) (v : Byte) (mode : Mode) :
    ∀ q ∈ sendByte p v mode, q.keepsCursor ∧ q.keepsLevel := by
  intro q hq
  simp only [sendByte, sendNibblePair, List.mem_append] at hq
  rcases hq with h | h <;> exact sendNibble_keeps _ _ q h

theorem sendResetPhase_keeps (p : Params) (v : Byte) :
    ∀ q ∈ sendResetPhase p v, q.keepsCursor ∧ q.keepsLevel := by
  intro q hq
  unfold sendResetPhase at hq
  split at hq
  · exact sendNibble_keeps _ _ q hq
  · exact sendByte_keeps _ _ _ q hq

/-- Logical and transmitted bytes write neither the cursor registers nor the LED. -/
theorem prims_keeps (p : Params) (i : Instr) : ∀ q ∈ prims p i, q.keepsCursor ∧ q.keepsLevel := by
  have one : ∀ b, ∀ q ∈ [Prim.tx b], q.keepsCursor ∧ q.keepsLevel := by
    simp [Prim.keepsCursor, Prim.keepsLevel, Prim.cursor, Prim.level]
  have none : ∀ q ∈ ([] : List Prim), q.keepsCursor ∧ q.keepsLevel := by simp
  cases i with
  | construct _ => exact none
  | init => exact none
  | print _ => exact none
  | moveCursor _ _ => exact none
  | shiftLeft => exact none
  | shiftRight => exact none
  | flashLed => exact none
  | reserved7 => exact none
  | resetByte => exact sendResetPhase_keeps _ _
  | mode4Byte => exact sendResetPhase_keeps _ _
  | cmdFunctionSet => exact sendByte_keeps _ _ _
  | cmdEntryMode => exact sendByte_keeps _ _ _
  | cmdClear => exact sendByte_keeps _ _ _
  | cmdHome => exact sendByte_keeps _ _ _
  | cmdDisplayOn => exact sendByte_keeps _ _ _
  | cmdSetDdram _ => exact sendByte_keeps _ _ _
  | cmdShiftLeft => exact sendByte_keeps _ _ _
  | cmdShiftRight => exact sendByte_keeps _ _ _
  | character _ => exact sendByte_keeps _ _ _
  | busHighCommand _ => exact one _
  | busHighCharacter _ => exact one _
  | busLowPhase _ => exact one _
  | busBacklightOnly => exact one _

/-! ### Lines -/

/-- The lines of a cursor move: none, or the command and the write of the registers, for a pair on the display. -/
theorem moveCursorItems_mem {c : Configuration} {row col : Byte} {it : Item} (h : it ∈ moveCursorItems c row col) :
    onDisplay c row col = true ∧ (it = .op (.cmdSetDdram (ddramAddress c.base row col)) ∨ it = .prim (.setCursor row col)) := by
  unfold moveCursorItems at h
  split at h
  · exact ⟨‹_›, by simpa using h⟩
  · cases h

theorem characterItems_mem {codes : List Byte} {it : Item} (h : it ∈ characterItems codes) :
    ∃ code ∈ codes, it = .op (.character code) := by
  simp only [characterItems, List.mem_map] at h
  obtain ⟨code, hc, rfl⟩ := h
  exact ⟨code, hc, rfl⟩

/-- The lines of a scroll. -/
theorem scrollItems_mem {p : Params} {c : Configuration} {row : Byte} {text : List Byte} {it : Item}
    (h : it ∈ scrollItems p c row text) :
    it ∈ moveCursorItems c row 0x00#8 ∨ (∃ code ∈ text, it = .op (.character code)) ∨ it = .prim (.delay p.tScroll) := by
  simp only [scrollItems, List.mem_flatMap, List.mem_append] at h
  obtain ⟨i, -, (h | h) | h⟩ := h
  · exact .inl h
  · obtain ⟨code, hc, rfl⟩ := characterItems_mem h
    exact .inr (.inl ⟨code, List.mem_of_mem_drop (List.mem_of_mem_take hc), rfl⟩)
  · exact .inr (.inr (by simpa using h))

theorem flashItems_mem {p : Params} {it : Item} (h : it ∈ flashItems p) :
    it = .prim (.delay p.tLed) ∨ ∃ level, it = .prim (.setPin level) := by
  simp only [flashItems, List.mem_flatten, List.mem_replicate] at h
  obtain ⟨_, ⟨-, rfl⟩, h⟩ := h
  simp only [List.mem_cons, List.not_mem_nil, or_false] at h
  rcases h with rfl | rfl | rfl | rfl
  · exact .inr ⟨_, rfl⟩
  · exact .inl rfl
  · exact .inr ⟨_, rfl⟩
  · exact .inl rfl

/-! ### The position inside an operation -/

@[simp] theorem setRest_setRest (s : State) (a b : List Item) : (s.setRest a).setRest b = s.setRest b := by
  cases s with | mk _ _ _ _ _ seq => cases seq <;> rfl

@[simp] theorem complete_setRest (s : State) (a : List Item) : (s.setRest a).complete = s.complete := by
  cases s with | mk _ _ _ _ _ seq => cases seq <;> rfl

/-- A bottom step does not look at the position. -/
theorem prim_setRest (c : Configuration) (q : Prim) (s : State) (rest : List Item) :
    prim c q (s.setRest rest) = (prim c q s).map (·.setRest rest) := by
  cases s with
  | mk _ _ _ _ _ seq _ _ _ _ _ replies =>
    cases q with
    | tx b =>
      cases replies with
      | nil => cases seq <;> rfl
      | cons r rs => cases r <;> cases seq <;> rfl
    | delay t => cases seq <;> rfl
    | setPin level => cases seq <;> rfl
    | setCursor row col => cases seq <;> rfl

theorem runPrims_setRest (c : Configuration) (qs : List Prim) (rest : List Item) (s : State) :
    runPrims c qs (s.setRest rest) = ((runPrims c qs s).1.setRest rest, (runPrims c qs s).2) := by
  induction qs generalizing s with
  | nil => rfl
  | cons q qs ih =>
    simp only [runPrims, prim_setRest]
    cases h : prim c q s with
    | none => rfl
    | some s' => simpa using ih s'

/-- Lines run to the end do not depend on the position they start from. -/
theorem runItems_setRest (c : Configuration) (items rest : List Item) (s : State) :
    runItems c items (s.setRest rest) = runItems c items s := by
  induction items generalizing s with
  | nil => exact complete_setRest s rest
  | cons it its ih =>
    simp only [runItems, State.setRest_params, runPrims_setRest]
    split
    · exact ih _
    · exact setRest_setRest _ _ _

/-- Where bottom steps are left over, the first of them is a transmission whose write has not returned. -/
theorem runPrims_left (c : Configuration) (qs : List Prim) (s : State) (q : Prim) (left : List Prim)
    (h : (runPrims c qs s).2 = q :: left) : (runPrims c qs s).1.nextReply = .never ∧ ∃ b, q = .tx b := by
  induction qs generalizing s with
  | nil => cases h
  | cons q' qs ih =>
    simp only [runPrims] at h ⊢
    cases hp : prim c q' s with
    | some s' =>
      simp only [hp] at h ⊢
      exact ih s' h
    | none =>
      simp only [hp] at h ⊢
      cases h
      cases q with
      | tx b =>
        rcases tx_cases c b s with ⟨-, h⟩ | ⟨ret, -, h⟩
        · exact ⟨h, b, rfl⟩
        · simp [prim, h] at hp
      | delay => cases hp
      | setPin => cases hp
      | setCursor => cases hp

@[simp] theorem nextReply_setRest (s : State) (rest : List Item) : (s.setRest rest).nextReply = s.nextReply := by
  simp [State.nextReply]

/-! ### The cursor after steps that may not all have finished -/

/-- Bottom steps leave the cursor where the finished ones put it. -/
theorem runPrims_cursor (c : Configuration) (qs : List Prim) (s : State) :
    ∃ finished, qs = finished ++ (runPrims c qs s).2 ∧
      ((runPrims c qs s).1.curRow, (runPrims c qs s).1.curCol) = finished.foldl Prim.cursor (s.curRow, s.curCol) := by
  induction qs generalizing s with
  | nil => exact ⟨[], rfl, rfl⟩
  | cons q qs ih =>
    simp only [runPrims]
    cases h : prim c q s with
    | none => exact ⟨[], rfl, rfl⟩
    | some s' =>
      obtain ⟨finished, h1, h2⟩ := ih s'
      exact ⟨q :: finished, by simpa using h1, by rw [h2, (prim_cursor_level h).1]; rfl⟩

/-- An operation either ends, with the cursor where all its bottom steps put it, or stands before a transmission, with the
cursor where the steps before that put it. -/
theorem runItems_cursor (c : Configuration) (items : List Item) (s : State) (op : Instr) (results : List TxResult)
    (rest : List Item) (hs : s.seq = .busy op results rest) :
    let t := runItems c items s
    let all := items.flatMap (itemPrims s.params)
    (t.seq = .idle ∧ (t.curRow, t.curCol) = all.foldl Prim.cursor (s.curRow, s.curCol)) ∨
      (t.seq ≠ .idle ∧ ∃ finished b left, all = finished ++ .tx b :: left ∧
        (t.curRow, t.curCol) = finished.foldl Prim.cursor (s.curRow, s.curCol)) := by
  induction items generalizing s results rest with
  | nil => exact .inl (by simp [runItems, State.complete, hs])
  | cons it its ih =>
    obtain ⟨first, h1, h2⟩ := runPrims_cursor c (itemPrims s.params it) s
    obtain ⟨more, h3⟩ := runPrims_seq c (itemPrims s.params it) s op results rest hs
    have hf := (runPrims_frame c (itemPrims s.params it) s).1
    simp only [runItems, List.flatMap_cons]
    cases hl : (runPrims c (itemPrims s.params it) s).2 with
    | nil =>
      rw [hl, List.append_nil] at h1
      subst h1
      rcases ih _ _ _ h3 with ⟨a, b⟩ | ⟨a, finished, b, left, d, e⟩
      · exact .inl ⟨a, by rw [b, hf, h2, List.foldl_append]⟩
      · refine .inr ⟨a, itemPrims s.params it ++ finished, b, left, ?_, ?_⟩
        · rw [hf] at d
          rw [d, List.append_assoc]
        · rw [e, h2, List.foldl_append]
    | cons q qs =>
      obtain ⟨b, rfl⟩ := (runPrims_left c _ s q qs hl).2
      rw [hl] at h1
      refine .inr ⟨by simp [State.setRest, h3], first, b, qs ++ its.flatMap (itemPrims s.params), ?_, by simpa using h2⟩
      conv_lhs => rw [h1]
      simp

end Sys2Proof.Machine
end

