-- ==== Sys2Proof/Laws/PerInstr.lean ====
section
/-! SUPPORT. A statement about every instruction as syntax: with the parameters at the defaults the opcode table is written for, its
first word is one its row matches. -/

namespace Sys2Proof.Laws.TableRow

/-- `mask` of the instruction's row. -/
def mask : Instr → Byte
  | .construct _ => 0x07#8
  | .init => 0x07#8
  | .print _ => 0x07#8
  | .moveCursor _ _ => 0x07#8
  | .shiftLeft => 0x07#8
  | .shiftRight => 0x07#8
  | .flashLed => 0x07#8
  | .reserved7 => 0x07#8
  | .resetByte => 0xFF#8
  | .mode4Byte => 0xFF#8
  | .cmdFunctionSet => 0xFF#8
  | .cmdEntryMode => 0xFF#8
  | .cmdClear => 0xFF#8
  | .cmdHome => 0xFF#8
  | .cmdDisplayOn => 0xFF#8
  | .cmdSetDdram _ => 0x80#8
  | .cmdShiftLeft => 0xFF#8
  | .cmdShiftRight => 0xFF#8
  | .character _ => 0x00#8
  | .busHighCommand _ => 0x0F#8
  | .busHighCharacter _ => 0x0F#8
  | .busLowPhase _ => 0x0F#8
  | .busBacklightOnly => 0xFF#8

/-- `match` of the instruction's row. -/
def pattern : Instr → Byte
  | .construct _ => 0x00#8
  | .init => 0x01#8
  | .print _ => 0x02#8
  | .moveCursor _ _ => 0x03#8
  | .shiftLeft => 0x04#8
  | .shiftRight => 0x05#8
  | .flashLed => 0x06#8
  | .reserved7 => 0x07#8
  | .resetByte => 0x03#8
  | .mode4Byte => 0x02#8
  | .cmdFunctionSet => 0x28#8
  | .cmdEntryMode => 0x06#8
  | .cmdClear => 0x01#8
  | .cmdHome => 0x02#8
  | .cmdDisplayOn => 0x0C#8
  | .cmdSetDdram _ => 0x80#8
  | .cmdShiftLeft => 0x18#8
  | .cmdShiftRight => 0x1C#8
  | .character _ => 0x00#8
  | .busHighCommand _ => 0x0C#8
  | .busHighCharacter _ => 0x0D#8
  | .busLowPhase _ => 0x08#8
  | .busBacklightOnly => 0x08#8

/-- The first word of the instruction's encoding, with the default parameters, matches the instruction's row. -/
def Statement (i : Instr) : Prop := ∃ b, (encode Machine.defaultParams i).head? = some b ∧ b &&& mask i = pattern i

theorem construct (args : Option ConstructArgs) : Statement (.construct args) := ⟨_, rfl, by simp [mask, pattern]⟩
theorem init : Statement .init := ⟨_, rfl, by decide⟩
theorem print (text : List Byte) : Statement (.print text) := ⟨_, rfl, by simp [mask, pattern]⟩
theorem moveCursor (row col : Byte) : Statement (.moveCursor row col) := ⟨_, rfl, by simp [mask, pattern]⟩
theorem shiftLeft : Statement .shiftLeft := ⟨_, rfl, by decide⟩
theorem shiftRight : Statement .shiftRight := ⟨_, rfl, by decide⟩
theorem flashLed : Statement .flashLed := ⟨_, rfl, by decide⟩
theorem reserved7 : Statement .reserved7 := ⟨_, rfl, by decide⟩
theorem resetByte : Statement .resetByte := ⟨_, rfl, by decide⟩
theorem mode4Byte : Statement .mode4Byte := ⟨_, rfl, by decide⟩
theorem cmdFunctionSet : Statement .cmdFunctionSet := ⟨_, rfl, by decide⟩
theorem cmdEntryMode : Statement .cmdEntryMode := ⟨_, rfl, by decide⟩
theorem cmdClear : Statement .cmdClear := ⟨_, rfl, by decide⟩
theorem cmdHome : Statement .cmdHome := ⟨_, rfl, by decide⟩
theorem cmdDisplayOn : Statement .cmdDisplayOn := ⟨_, rfl, by decide⟩
theorem cmdSetDdram (address : Addr7) : Statement (.cmdSetDdram address) :=
  ⟨_, rfl, by revert address; unfold mask pattern; decide⟩
theorem cmdShiftLeft : Statement .cmdShiftLeft := ⟨_, rfl, by decide⟩
theorem cmdShiftRight : Statement .cmdShiftRight := ⟨_, rfl, by decide⟩
theorem character (code : Byte) : Statement (.character code) := ⟨_, rfl, by simp [mask, pattern]⟩
theorem busHighCommand (data : Nibble) : Statement (.busHighCommand data) :=
  ⟨_, rfl, by revert data; unfold mask pattern; decide⟩
theorem busHighCharacter (data : Nibble) : Statement (.busHighCharacter data) :=
  ⟨_, rfl, by revert data; unfold mask pattern; decide⟩
theorem busLowPhase (data : Nibble) : Statement (.busLowPhase data) :=
  ⟨_, rfl, by revert data; unfold mask pattern; decide⟩
theorem busBacklightOnly : Statement .busBacklightOnly := ⟨_, rfl, by decide⟩

end Sys2Proof.Laws.TableRow
end

