-- ==== Sys2Proof/Tests/Slice0.lean ====
section
/-! SUPPORT. Tests. Expected values come from spec/95_test_vectors.md (the vector is named beside each) or from the rule named.
The last part gives, for every obligation with hypotheses, values that meet them. -/

namespace Sys2Proof.Tests

open Sys2Proof Sys2Proof.Machine

/-! ### Small states -/

/-- The default configuration (R24) with a geometry of its own. -/
def geometry (rows cols : Byte) : Configuration := ⟨0x00#8, 0x04#8, 0x05#8, 0x27#7, rows, cols, defaultParams.base, 0x00#8⟩

/-- The 2 x 16 display of R24. -/
def display : Configuration := geometry 0x02#8 0x10#8

/-- A constructed block, ready for a request, with an empty log. -/
def readyWith (c : Configuration) (replies : List Reply) : State :=
  { State.reset with
    config := some c
    wbuf := List.replicate c.cols.toNat 0x00#8
    ledOutput := true
    ledLevel := true
    replies := replies }

/-- The 2 x 16 block with a transport that writes every byte. -/
def ready : State := readyWith display []

/-- The 2 x 16 block inside an operation, before the lines `rest`. -/
def running (rest : List Item) (replies : List Reply) : State :=
  { readyWith display replies with seq := .busy .init [] rest }

/-- The bytes an instruction puts on the bus. -/
def sent (o : Result) : Option (List Byte) :=
  match o with
  | .next t => some (txBytes t.trace)
  | .fault _ => none
  | .refused _ => none

/-- The cursor registers afterwards. -/
def cursor (o : Result) : Option (Byte × Byte) :=
  match o with
  | .next t => some (t.curRow, t.curCol)
  | .fault _ => none
  | .refused _ => none

/-- The response afterwards. -/
def answer (o : Result) : Option Response :=
  match o with
  | .next t => t.response
  | .fault _ => none
  | .refused _ => none

/-- The write buffer afterwards. -/
def buffer (o : Result) : Option (List Byte) :=
  match o with
  | .next t => some t.wbuf
  | .fault _ => none
  | .refused _ => none

/-- Why an instruction was refused. -/
def refusal (o : Result) : Option Refusal :=
  match o with
  | .next _ => none
  | .fault _ => none
  | .refused r => some r

/-! ### Well-formedness: the one check, and a term it refuses -/

theorem wellFormed_of_length (text : List Byte) (h : text.length ≤ 65535) : WellFormed (.print text) := decide_eq_true h

theorem test_wellFormed_longest_text : WellFormed (.print (List.replicate 65535 0x41#8)) :=
  wellFormed_of_length _ (Nat.le_of_eq List.length_replicate)

theorem test_wellFormed_refuses_text_without_length : ¬ WellFormed (.print (List.replicate 65536 0x41#8)) := by
  simp only [WellFormed, Instr.wellFormed, decide_eq_true_eq]
  rw [List.length_replicate]
  decide

/-! ### Decoding: each row's word written out bit by bit from 30_encoding.md

The words of the control-line bits and the command bytes are those of the default parameters, named in each test (R86). -/

/-- R100 selector 0, no operands: form byte 0 (log entry 1). -/
theorem test_decode_construct_defaults : decode defaultParams .hostOp [0b00000000#8, 0x00#8] = .ok (.construct none) := by decide
/-- R100 selector 0, six operands. -/
theorem test_decode_construct :
    decode defaultParams .hostOp [0b00000000#8, 0x01#8, 0x09#8, 0x04#8, 0x05#8, 0x27#8, 0x02#8, 0x10#8]
      = .ok (.construct (some ⟨0x09#8, 0x04#8, 0x05#8, 0x27#8, 0x02#8, 0x10#8⟩)) := by decide
/-- R100 selectors 1 to 7. -/
theorem test_decode_init : decode defaultParams .hostOp [0b00000001#8] = .ok .init := by decide
theorem test_decode_print :
    decode defaultParams .hostOp [0b00000010#8, 0x02#8, 0x00#8, 0x48#8, 0x69#8] = .ok (.print [0x48#8, 0x69#8]) := by decide
theorem test_decode_moveCursor : decode defaultParams .hostOp [0b00000011#8, 0x01#8, 0x03#8] = .ok (.moveCursor 0x01#8 0x03#8) := by decide
theorem test_decode_shiftLeft : decode defaultParams .hostOp [0b00000100#8] = .ok .shiftLeft := by decide
theorem test_decode_shiftRight : decode defaultParams .hostOp [0b00000101#8] = .ok .shiftRight := by decide
theorem test_decode_flashLed : decode defaultParams .hostOp [0b00000110#8] = .ok .flashLed := by decide
theorem test_decode_reserved7 : decode defaultParams .hostOp [0b00000111#8] = .ok .reserved7 := by decide
/-- R90, R91. -/
theorem test_decode_resetByte : decode defaultParams .resetPhase [0b00000011#8] = .ok .resetByte := by decide
theorem test_decode_mode4Byte : decode defaultParams .resetPhase [0b00000010#8] = .ok .mode4Byte := by decide
/-- R92 to R99. -/
theorem test_decode_cmdFunctionSet : decode defaultParams .command [0b00101000#8] = .ok .cmdFunctionSet := by decide
theorem test_decode_cmdEntryMode : decode defaultParams .command [0b00000110#8] = .ok .cmdEntryMode := by decide
theorem test_decode_cmdClear : decode defaultParams .command [0b00000001#8] = .ok .cmdClear := by decide
theorem test_decode_cmdHome : decode defaultParams .command [0b00000010#8] = .ok .cmdHome := by decide
theorem test_decode_cmdDisplayOn : decode defaultParams .command [0b00001100#8] = .ok .cmdDisplayOn := by decide
theorem test_decode_cmdSetDdram : decode defaultParams .command [0b11000011#8] = .ok (.cmdSetDdram 0b1000011#7) := by decide
theorem test_decode_cmdShiftLeft : decode defaultParams .command [0b00011000#8] = .ok .cmdShiftLeft := by decide
theorem test_decode_cmdShiftRight : decode defaultParams .command [0b00011100#8] = .ok .cmdShiftRight := by decide
/-- R105: any code. -/
theorem test_decode_character : decode defaultParams .character [0b01001000#8] = .ok (.character 0x48#8) := by decide
/-- R80, R87: data in bits 7:4, then backlight, enable, read/write, register-select. -/
theorem test_decode_busHighCommand : decode defaultParams .pulse [0b00101100#8] = .ok (.busHighCommand 0b0010#4) := by decide
theorem test_decode_busHighCharacter : decode defaultParams .pulse [0b01001101#8] = .ok (.busHighCharacter 0b0100#4) := by decide
theorem test_decode_busLowPhase : decode defaultParams .pulse [0b10001000#8] = .ok (.busLowPhase 0b1000#4) := by decide
theorem test_decode_busBacklightOnly : decode defaultParams .bare [0b00001000#8] = .ok .busBacklightOnly := by decide

/-! What is no encoding, by name. -/

theorem test_decode_refuses_wide_selector : decode defaultParams .hostOp [0x08#8] = .error .selectorTooWide := by decide
theorem test_decode_refuses_short_text : decode defaultParams .hostOp [0x02#8, 0x02#8, 0x00#8, 0x48#8] = .error .truncatedOperands := by decide
theorem test_decode_refuses_rest : decode defaultParams .hostOp [0x01#8, 0x00#8] = .error .trailingBytes := by decide
theorem test_decode_refuses_form : decode defaultParams .hostOp [0x00#8, 0x02#8] = .error .noSuchForm := by decide
theorem test_decode_refuses_nothing : decode defaultParams .hostOp [] = .error .noWord := by decide
/-- R108: no cursor or blink variant of Display-Control. -/
theorem test_decode_refuses_command : decode defaultParams .command [0x0F#8] = .error .noCommand := by decide
/-- R107: read/write set; enable clear with register-select set. -/
theorem test_decode_refuses_read : decode defaultParams .pulse [0x4E#8] = .error .noPulseByte := by decide
theorem test_decode_refuses_rs_alone : decode defaultParams .pulse [0x49#8] = .error .noPulseByte := by decide
theorem test_decode_refuses_resetPhase : decode defaultParams .resetPhase [0x28#8] = .error .noResetByte := by decide
theorem test_decode_refuses_bare : decode defaultParams .bare [0x18#8] = .error .noBareByte := by decide

/-! ### Framing (V10 to V19) -/

theorem test_frame_V10 : frame defaultParams 0x48#8 .character = (0x4D#8, 0x8D#8) := by decide
theorem test_frame_V14 : frame defaultParams 0xA5#8 .command = (0xAC#8, 0x5C#8) := by decide
theorem test_frame_V17 : frame defaultParams 0x0F#8 .command = (0x0C#8, 0xFC#8) := by decide
theorem test_frame_V18 : frame defaultParams 0xF0#8 .character = (0xFD#8, 0x0D#8) := by decide
theorem test_lowPhase_V13 : lowPhase defaultParams 0xFD#8 = 0xF8#8 := by decide

/-! ### Bytes (R152, R156) -/

/-- `SendByte(0x48, Character)`. -/
theorem test_character_V10 :
    sent (exec (.character 0x48#8) (running [] [])) = some [0x4D#8, 0x48#8, 0x8D#8, 0x88#8] := by decide
/-- `SendByte(0x01, Command)`. -/
theorem test_cmdClear : sent (exec .cmdClear (running [] [])) = some [0x0C#8, 0x08#8, 0x1C#8, 0x18#8] := by decide
/-- The rows of V20, V40, V50, V51. -/
theorem test_resetByte : sent (exec .resetByte (running [] [])) = some [0x0C#8, 0x08#8, 0x3C#8, 0x38#8] := by decide
theorem test_mode4Byte : sent (exec .mode4Byte (running [] [])) = some [0x0C#8, 0x08#8, 0x2C#8, 0x28#8] := by decide
theorem test_mode4Byte_single :
    sent (exec .mode4Byte { running [] [] with params := { defaultParams with initSingleNibble := true } })
      = some [0x2C#8, 0x28#8] := by decide
theorem test_cmdFunctionSet :
    sent (exec .cmdFunctionSet (running [] [])) = some [0x2C#8, 0x28#8, 0x8C#8, 0x88#8] := by decide
theorem test_cmdEntryMode : sent (exec .cmdEntryMode (running [] [])) = some [0x0C#8, 0x08#8, 0x6C#8, 0x68#8] := by decide
theorem test_cmdHome : sent (exec .cmdHome (running [] [])) = some [0x0C#8, 0x08#8, 0x2C#8, 0x28#8] := by decide
theorem test_cmdDisplayOn : sent (exec .cmdDisplayOn (running [] [])) = some [0x0C#8, 0x08#8, 0xCC#8, 0xC8#8] := by decide
theorem test_cmdSetDdram :
    sent (exec (.cmdSetDdram 0x43#7) (running [] [])) = some [0xCC#8, 0xC8#8, 0x3C#8, 0x38#8] := by decide
theorem test_cmdShiftLeft : sent (exec .cmdShiftLeft (running [] [])) = some [0x1C#8, 0x18#8, 0x8C#8, 0x88#8] := by decide
theorem test_cmdShiftRight : sent (exec .cmdShiftRight (running [] [])) = some [0x1C#8, 0x18#8, 0xCC#8, 0xC8#8] := by decide
theorem test_busHighCommand : sent (exec (.busHighCommand 0xA#4) (running [] [])) = some [0xAC#8] := by decide
theorem test_busHighCharacter : sent (exec (.busHighCharacter 0xA#4) (running [] [])) = some [0xAD#8] := by decide
theorem test_busLowPhase : sent (exec (.busLowPhase 0xA#4) (running [] [])) = some [0xA8#8] := by decide
theorem test_busBacklightOnly : sent (exec .busBacklightOnly (running [] [])) = some [0x08#8] := by decide

/-- V70: one byte was asked for, so a return below 1 is a short write. -/
theorem test_txResult_V70 :
    txResult 7 1 = .ok ∧ txResult 7 0 = .busWriteIncomplete 7 ∧ txResult 7 (-1) = .busWriteIncomplete 7
      ∧ txResult 7 (-2) = .busWriteIncomplete 7 ∧ txResult 7 2 = .ok := by decide

/-! ### Host operations -/

/-- V20: the 37 bytes of INIT. -/
def initBytes : List Byte :=
  [0x0C, 0x08, 0x3C, 0x38, 0x0C, 0x08, 0x3C, 0x38, 0x0C, 0x08, 0x3C, 0x38, 0x0C, 0x08, 0x2C, 0x28, 0x2C, 0x28, 0x8C, 0x88,
   0x0C, 0x08, 0x6C, 0x68, 0x0C, 0x08, 0x1C, 0x18, 0x08, 0x0C, 0x08, 0x2C, 0x28, 0x0C, 0x08, 0xCC, 0xC8]

theorem test_init_V20 : sent (exec .init ready) = some initBytes := by decide +kernel
/-- V21, first part: every write returns 0. -/
theorem test_init_V21 :
    (answer (exec .init (readyWith display (List.replicate 37 (.returns 0))))).map (fun r => r.errCount) = some 37 := by
  decide +kernel
/-- R120, R260: CONSTRUCT() runs INIT after its set-up calls. -/
theorem test_construct : sent (exec (.construct none) State.reset) = some initBytes := by decide +kernel
/-- V72: 4 rows of 44 are legal, 4 rows of 45 are not. -/
theorem test_construct_V72 :
    refusal (exec (.construct (some ⟨0x00#8, 0x04#8, 0x05#8, 0x27#8, 0x04#8, 0x2D#8⟩)) State.reset)
        = some .illegalConfiguration
      ∧ configurationLegal defaultParams ⟨0x00#8, 0x04#8, 0x05#8, 0x27#8, 0x04#8, 0x2C#8⟩ = true := by decide +kernel

/-- V1, V31: the buffer after `PRINT(2, "Hi")`, and how many bytes it sends. -/
theorem test_print_V31 :
    buffer (exec (.print [0x48#8, 0x69#8]) ready) = some ([0x48#8, 0x69#8] ++ List.replicate 14 0x20#8)
      ∧ (sent (exec (.print [0x48#8, 0x69#8]) ready)).map List.length = some 64 := by decide +kernel
/-- V37: a scroll of two windows of one character; and a text of 5 codes above a LEN_MAX of 4 (R170, U3). -/
theorem test_print_V37 :
    sent (exec (.print [0x41#8, 0x42#8]) (readyWith (geometry 0x02#8 0x01#8) []))
      = some [0x8C#8, 0x88#8, 0x0C#8, 0x08#8, 0x4D#8, 0x48#8, 0x1D#8, 0x18#8,
          0x8C#8, 0x88#8, 0x0C#8, 0x08#8, 0x4D#8, 0x48#8, 0x2D#8, 0x28#8]
      ∧ refusal (exec (.print [0x41#8, 0x42#8, 0x43#8, 0x44#8, 0x45#8])
          { ready with params := { defaultParams with lenMax := some 4 } }) = some .textTooLong := by decide +kernel

/-- V40, V42, V44, V45, V48: the last pair accepted on two displays, the first column and the first row rejected; and a
row table with row 1 at 0x20 (R8, R190). -/
theorem test_moveCursor_V40_to_V48 :
    sent (exec (.moveCursor 0x01#8 0x03#8) ready) = some [0xCC#8, 0xC8#8, 0x3C#8, 0x38#8]
      ∧ cursor (exec (.moveCursor 0x01#8 0x0F#8) ready) = some (0x01#8, 0x0F#8)
      ∧ sent (exec (.moveCursor 0x01#8 0x10#8) ready) = some [] ∧ sent (exec (.moveCursor 0x02#8 0x00#8) ready) = some []
      ∧ sent (exec (.moveCursor 0x03#8 0x13#8) (readyWith (geometry 0x04#8 0x14#8) []))
        = some [0xEC#8, 0xE8#8, 0x7C#8, 0x78#8]
      ∧ sent (exec (.moveCursor 0x01#8 0x03#8) (readyWith { display with base := ⟨0x00#7, 0x20#7, 0x14#7, 0x54#7⟩ } []))
        = some [0xAC#8, 0xA8#8, 0x3C#8, 0x38#8] := by decide +kernel
/-- V71: errors are recorded and change nothing else. -/
theorem test_moveCursor_V71 :
    answer (exec (.moveCursor 0x00#8 0x05#8) (readyWith display [.returns 1, .returns 0, .returns (-1), .returns 1]))
        = some ⟨[.ok, .busWriteIncomplete 1, .busWriteIncomplete 2, .ok], 2⟩ := by decide +kernel

/-- V50, V51. -/
theorem test_shiftLeft_V50 : sent (exec .shiftLeft ready) = some [0x1C#8, 0x18#8, 0x8C#8, 0x88#8] := by decide
theorem test_shiftRight_V51 : sent (exec .shiftRight ready) = some [0x1C#8, 0x18#8, 0xCC#8, 0xC8#8] := by decide
/-- V60. -/
theorem test_flashLed_V60 :
    sent (exec .flashLed ready) = some [] ∧ answer (exec .flashLed ready) = some ⟨[], 0⟩ := by decide +kernel
/-- V72: selector 7. -/
theorem test_reserved7_V72 : refusal (exec .reserved7 ready) = some .reservedSelector := by decide

/-! ### Placing a word -/

/-- The selector of MOVE_CURSOR with operands of zeros. -/
theorem test_table_word : decodeTableWord 3 0x3 = some (.moveCursor 0x00#8 0x00#8) := by decide
/-- A logical byte placed in a block fresh from reset is sent by the next step. -/
theorem test_withFetchWord : sent (step (State.reset.withFetchWord 8 0x28)) = some [0x2C#8, 0x28#8, 0x8C#8, 0x88#8] := by
  decide +kernel

/-! ### Witnesses: for each obligation with hypotheses, values that meet all of them -/

theorem ready_readyAs : ready.readyAs display := ⟨rfl, rfl⟩
theorem ready_transport : ready.transportReturns := by decide
theorem ready_bits : controlBitsLegal ready.params = true := by decide
theorem ready_geometry : geometryLegal display.base display.rows display.cols (display.i2cAddr.setWidth 8) = true := by decide +kernel
theorem ready_inv : ready.Inv := by
  refine ⟨ready_geometry, ready_bits, by decide, by decide, by decide, ?_, ?_⟩ <;> intro _ h <;> cases h

/-- DecodeOfEncode: both ends of a text's length; the default parameters tell the words apart at every place. -/
theorem test_DecodeOfEncode :
    WellFormed (.print []) ∧ WellFormed (.print (List.replicate 65535 0x41#8))
      ∧ ∀ i : Instr, wordsApart defaultParams i.port := by
  refine ⟨by decide, test_wellFormed_longest_text, fun i => ?_⟩
  generalize i.port = port
  cases port <;> unfold wordsApart
  case command => decide +kernel
  all_goals trivial
/-- TableWordsDecode: the default parameters. -/
theorem test_TableWordsDecode :
    defaultParams.rsBit = 0x01#8 ∧ defaultParams.enBit = 0x04#8 ∧ defaultParams.blBit = 0x08#8
      ∧ defaultParams.resetByte = 0x03#8 ∧ defaultParams.mode4Byte = 0x02#8
      ∧ plainCommands defaultParams = [0x28#8, 0x06#8, 0x01#8, 0x02#8, 0x0C#8, 0x18#8, 0x1C#8]
      ∧ defaultParams.setDdram = 0x80#8 := by decide
theorem test_DecodeReadsOnlyEncodings : decode defaultParams .hostOp [0x01#8] = .ok .init := by decide
theorem test_StepRunsTheRequest :
    ({ ready with request := some [0x01#8] } : State).request = some [0x01#8] ∧ decode defaultParams .hostOp [0x01#8] = .ok .init := by
  decide
/-- StepRunsTheNextLine: an instruction, a bottom step, no line left. -/
theorem test_StepRunsTheNextLine :
    (running [.op .cmdClear] []).request = none ∧ (running [.op .cmdClear] []).seq = .busy .init [] (.op .cmdClear :: [])
      ∧ (running [.prim (.delay 5)] []).request = none
      ∧ (running [.prim (.delay 5)] []).seq = .busy .init [] (.prim (.delay 5) :: [])
      ∧ (running [.prim (.delay 5)] []).config = some display
      ∧ (running [] []).request = none ∧ (running [] []).seq = .busy .init [] [] := by decide
theorem test_StepWithoutAnInstruction :
    State.reset.request = none ∧ State.reset.seq = .idle
      ∧ ({ ready with request := some [0xFF#8] } : State).request = some [0xFF#8]
      ∧ decode defaultParams .hostOp [0xFF#8] = .error .selectorTooWide := by decide
theorem test_TransportThatNeverReturns :
    (running [.prim (.tx 0x08#8)] [.never]).runningAs display .init [] (.prim (.tx 0x08#8) :: [])
      ∧ (running [.prim (.tx 0x08#8)] [.never]).request = none
      ∧ (running [.prim (.tx 0x08#8)] [.never]).replies = .never :: [] := ⟨⟨rfl, rfl⟩, rfl, rfl⟩
/-- OperationThatNeverReturns: stuck in the first write and in the second. -/
theorem test_OperationThatNeverReturns :
    Instr.shiftLeft.port = .hostOp
      ∧ (∃ t, exec .shiftLeft (readyWith display [.never]) = .next t ∧ t.seq ≠ .idle)
      ∧ (∃ t, exec .shiftLeft (readyWith display [.returns 1, .never]) = .next t ∧ t.seq ≠ .idle)
      ∧ (readyWith display [.never]).readyAs display ∧ (readyWith display [.never]).replies = .never :: [] :=
  ⟨rfl, ⟨_, rfl, by decide⟩, ⟨_, rfl, by decide⟩, ⟨rfl, rfl⟩, rfl⟩
theorem test_BusyBlockRefusesRequests :
    Instr.init.port = .hostOp ∧ Instr.init ≠ .reserved7 ∧ (running [] []).seq = .busy .init [] [] := by decide
theorem test_NothingBeforeConstruct :
    Instr.init.port = .hostOp ∧ (∀ args, Instr.init ≠ .construct args) ∧ Instr.init ≠ .reserved7
      ∧ State.reset.seq = .idle ∧ State.reset.config = none :=
  ⟨rfl, (by intro _ h; cases h), by decide, rfl, rfl⟩
theorem test_SecondConstructIsRefused : ready.readyAs display := ready_readyAs
/-- OnlyLegalConfigurations: the hypotheses, and a legal and an illegal configuration where the two meet (R9: the last address
of row 3 is 0x54 + 44 - 1 = 0x7F). -/
theorem test_OnlyLegalConfigurations :
    State.reset.seq = .idle ∧ State.reset.config = none
      ∧ (∀ r, r < 4 → (bases State.reset.params.base).getD r 0 + 44 - 1 ≤ 0x7F)
      ∧ ¬ (∀ r, r < 4 → (bases State.reset.params.base).getD r 0 + 45 - 1 ≤ 0x7F) := by decide
/-- The 2 x 16 block with a LEN_MAX of its own (U3). -/
def limited (n : Nat) : State := { ready with params := { defaultParams with lenMax := some n } }
/-- TextLengthLimit, at V38's two lengths and at both sides of a LEN_MAX of 4. -/
theorem test_TextLengthLimit :
    ready.readyAs display ∧ ready.params.lenMax = none
      ∧ (List.replicate 271 0x41#8).length ≤ display.cols.toNat + 255
      ∧ display.cols.toNat + 255 < (List.replicate 272 0x41#8).length
      ∧ (limited 4).readyAs display ∧ (limited 4).params.lenMax = some 4
      ∧ (List.replicate 4 0x41#8).length ≤ 4 ∧ 4 < (List.replicate 5 0x41#8).length :=
  ⟨ready_readyAs, rfl, by rw [List.length_replicate]; decide, by rw [List.length_replicate]; decide, ⟨rfl, rfl⟩, rfl,
    by decide, by decide⟩
theorem test_InnerBytesNeedAnOperation : Instr.cmdClear.port ≠ .hostOp ∧ State.reset.seq = .idle := by decide
theorem test_FrameLaws : controlBitsLegal defaultParams = true := by decide
theorem test_LowPhaseOfANibbleByte : controlBitsLegal defaultParams = true := by decide
/-- CommandBytesAreSent, CharacterIsSentVerbatim, TransmittedBytesAreSent: with a line left and with none. -/
theorem test_CommandBytesAreSent :
    (running [] []).runningAs display .init [] [] ∧ (running [.op .cmdHome] []).runningAs display .init [] [.op .cmdHome]
      ∧ (running [] []).transportReturns ∧ controlBitsLegal (running [] []).params = true :=
  ⟨⟨rfl, rfl⟩, ⟨rfl, rfl⟩, by decide, by decide⟩
theorem test_CharacterIsSentVerbatim :
    (running [] []).runningAs display .init [] [] ∧ (running [] []).transportReturns
      ∧ controlBitsLegal (running [] []).params = true := ⟨⟨rfl, rfl⟩, by decide, by decide⟩
theorem test_TransmittedBytesAreSent :
    (running [] []).runningAs display .init [] [] ∧ (running [] []).transportReturns
      ∧ controlBitsLegal (running [] []).params = true := ⟨⟨rfl, rfl⟩, by decide, by decide⟩
/-- A block whose reset phase sends single nibbles. -/
def single (s : State) : State := { s with params := { defaultParams with initSingleNibble := true } }
/-- ResetPhaseBytesAreSent: both positions of the switch. -/
theorem test_ResetPhaseBytesAreSent :
    (running [] []).runningAs display .init [] [] ∧ (running [] []).params.initSingleNibble = false
      ∧ (single (running [] [])).runningAs display .init [] [] ∧ (single (running [] [])).params.initSingleNibble = true
      ∧ (single (running [] [])).transportReturns ∧ controlBitsLegal (single (running [] [])).params = true :=
  ⟨⟨rfl, rfl⟩, rfl, ⟨rfl, rfl⟩, rfl, by decide, by decide⟩
/-- TransmissionRecordsItsResult: the largest return that is an error and the smallest that is none. -/
theorem test_TransmissionRecordsItsResult :
    (running [.op .cmdHome] [.returns 0]).runningAs display .init [] (.op .cmdHome :: [])
      ∧ (running [.op .cmdHome] [.returns 0]).replies = .returns 0 :: [] ∧ (0 : Int) < 1
      ∧ (running [.op .cmdHome] [.returns 1]).runningAs display .init [] (.op .cmdHome :: [])
      ∧ (running [.op .cmdHome] [.returns 1]).replies = .returns 1 :: [] ∧ (1 : Int) ≤ 1 :=
  ⟨⟨rfl, rfl⟩, rfl, by decide, ⟨rfl, rfl⟩, rfl, by decide⟩
theorem test_InitRunsTheWholeSequence :
    ready.readyAs display ∧ ready.transportReturns ∧ controlBitsLegal ready.params = true :=
  ⟨ready_readyAs, ready_transport, ready_bits⟩
/-- InitTraceSize: both positions of the switch. -/
theorem test_InitTraceSize :
    ready.readyAs display ∧ ready.params.initSingleNibble = false ∧ (single ready).readyAs display
      ∧ (single ready).params.initSingleNibble = true ∧ (single ready).transportReturns
      ∧ controlBitsLegal (single ready).params = true :=
  ⟨ready_readyAs, rfl, ⟨rfl, rfl⟩, rfl, by decide, by decide⟩
/-- ConstructSetsUpAndInitialises: the zero-argument form and a full one. -/
theorem test_ConstructSetsUpAndInitialises :
    State.reset.seq = .idle ∧ State.reset.config = none ∧ State.reset.transportReturns
      ∧ configurationLegal State.reset.params (defaultArgs State.reset.params) = true
      ∧ configurationLegal State.reset.params ⟨0x01#8, 0x04#8, 0x05#8, 0x7F#8, 0x04#8, 0x2C#8⟩ = true := by decide +kernel
/-- FirstByteAfterReset: both positions of the switch. -/
theorem test_FirstByteAfterReset :
    State.reset.log = [] ∧ State.reset.config = none ∧ State.reset.transportReturns
      ∧ State.reset.params.initSingleNibble = false ∧ (∃ t, exec (.construct none) State.reset = .next t)
      ∧ (single State.reset).log = [] ∧ (single State.reset).config = none ∧ (single State.reset).transportReturns
      ∧ (single State.reset).params.initSingleNibble = true ∧ ∃ t, exec (.construct none) (single State.reset) = .next t := by
  have h : configurationLegal defaultParams (defaultArgs defaultParams) = true := by decide +kernel
  have h' : configurationLegal (single State.reset).params (defaultArgs (single State.reset).params) = true := by
    decide +kernel
  refine ⟨rfl, rfl, by decide, rfl, ?_, rfl, rfl, by decide, rfl, ?_⟩
  · simp [exec, execConstruct, State.reset, constructArgs, h, perform]
  · unfold exec execConstruct constructArgs
    rw [show (single State.reset).seq = .idle from rfl, show (single State.reset).config = none from rfl]
    simp only [Option.getD_none, h', if_true]
    exact ⟨_, rfl⟩
/-- PrintThatFits: the empty text and the longest that fits. -/
theorem test_PrintThatFits :
    ready.readyAs display ∧ ready.transportReturns ∧ controlBitsLegal ready.params = true
      ∧ ([] : List Byte).length ≤ display.cols.toNat ∧ (List.replicate 16 0x41#8).length ≤ display.cols.toNat
      ∧ (List.replicate 16 0x41#8).length ≤ lenMax ready.params display.cols :=
  ⟨ready_readyAs, ready_transport, ready_bits, by decide, by decide, by decide⟩
/-- PrintThatScrolls: the shortest and the longest text that scrolls. -/
theorem test_PrintThatScrolls :
    ready.readyAs display ∧ ready.transportReturns ∧ controlBitsLegal ready.params = true
      ∧ geometryLegal display.base display.rows display.cols (display.i2cAddr.setWidth 8) = true
      ∧ ready.curRow.toNat < display.rows.toNat
      ∧ display.cols.toNat < (List.replicate 17 0x41#8).length
      ∧ (List.replicate 271 0x41#8).length ≤ lenMax ready.params display.cols :=
  ⟨ready_readyAs, ready_transport, ready_bits, ready_geometry, by decide, by rw [List.length_replicate]; decide,
    by rw [List.length_replicate]; decide⟩
/-- PrintTraceSize: a text of W characters and one of W + 1. -/
theorem test_PrintTraceSize :
    ready.readyAs display ∧ ready.transportReturns ∧ controlBitsLegal ready.params = true
      ∧ geometryLegal display.base display.rows display.cols (display.i2cAddr.setWidth 8) = true
      ∧ ready.curRow.toNat < display.rows.toNat
      ∧ (List.replicate 16 0x41#8).length ≤ display.cols.toNat
      ∧ display.cols.toNat < (List.replicate 17 0x41#8).length
      ∧ (List.replicate 17 0x41#8).length ≤ lenMax ready.params display.cols :=
  ⟨ready_readyAs, ready_transport, ready_bits, ready_geometry, by decide, by rw [List.length_replicate]; decide,
    by rw [List.length_replicate]; decide, by rw [List.length_replicate]; decide⟩
/-- MoveCursorMoves: the last pair accepted, the first column and the first row rejected. -/
theorem test_MoveCursorMoves :
    ready.readyAs display ∧ ready.transportReturns ∧ controlBitsLegal ready.params = true
      ∧ geometryLegal display.base display.rows display.cols (display.i2cAddr.setWidth 8) = true
      ∧ ¬ (display.rows.toNat ≤ (0x01#8).toNat ∨ display.cols.toNat ≤ (0x0F#8).toNat)
      ∧ display.cols.toNat ≤ (0x10#8).toNat ∧ display.rows.toNat ≤ (0x02#8).toNat :=
  ⟨ready_readyAs, ready_transport, ready_bits, ready_geometry, by decide, by decide, by decide⟩
/-- AddressNeverWraps, at address 0x7F. -/
theorem test_AddressNeverWraps :
    geometryLegal defaultParams.base 0x04#8 0x2C#8 0x27#8 = true ∧ (0x03#8).toNat < (0x04#8).toNat ∧ (0x2B#8).toNat < (0x2C#8).toNat := by
  decide +kernel
theorem test_ShiftsAreOneCommand :
    ready.readyAs display ∧ ready.transportReturns ∧ controlBitsLegal ready.params = true :=
  ⟨ready_readyAs, ready_transport, ready_bits⟩
theorem test_FlashLedBlinks : ready.readyAs display ∧ 0 < ready.params.nLed := ⟨ready_readyAs, by decide⟩
/-- ErrorsNeverTransferControl: a transport that writes nothing beside the one that does. -/
theorem test_ErrorsNeverTransferControl :
    ready.transportReturns ∧ Reply.never ∉ [Reply.returns 0, .returns (-1)] ∧ ∃ t, exec .shiftLeft ready = .next t :=
  ⟨ready_transport, by decide, _, rfl⟩
theorem test_ResultListLengths :
    Instr.shiftLeft.port = .hostOp ∧ ready.transportReturns ∧ ready.Inv
      ∧ ∃ t, exec .shiftLeft ready = .next t ∧ t.config = some display :=
  ⟨rfl, ready_transport, ready_inv, _, rfl, rfl⟩
theorem test_OperationEndsIdleWithItsCount :
    Instr.shiftLeft.port = .hostOp ∧ ready.transportReturns ∧ ∃ t, exec .shiftLeft ready = .next t :=
  ⟨rfl, ready_transport, _, rfl⟩
/-- ErrorNamesItsTransmission: the third write is short. -/
theorem test_ErrorNamesItsTransmission :
    let s := readyWith display [.returns 1, .returns 1, .returns 0, .returns 1]
    Instr.shiftLeft.port = .hostOp ∧ s.transportReturns
      ∧ ∃ t r, exec .shiftLeft s = .next t ∧ t.response = some r ∧ r.results[2]? = some (.busWriteIncomplete 2) :=
  ⟨rfl, by decide, _, _, rfl, rfl, rfl⟩
theorem test_InnerBytesFrame : Instr.cmdClear.port ≠ .hostOp ∧ ∃ t, exec .cmdClear (running [] []) = .next t :=
  ⟨by decide, _, rfl⟩
/-- CursorWriters: an accepted cursor move, completed and stuck in its second write. -/
theorem test_CursorWriters :
    (Instr.moveCursor 0x01#8 0x0F#8).port = .hostOp ∧ ready.config = some display
      ∧ (∃ t, exec (.moveCursor 0x01#8 0x0F#8) ready = .next t ∧ t.seq = .idle)
      ∧ (∃ t, exec (.moveCursor 0x01#8 0x0F#8) (readyWith display [.returns 1, .never]) = .next t ∧ t.seq ≠ .idle)
      ∧ (readyWith display [.returns 1, .never]).config = some display
      ∧ ((0x01#8).toNat < display.rows.toNat ∧ (0x0F#8).toNat < display.cols.toNat) :=
  ⟨rfl, rfl, ⟨_, rfl, rfl⟩, ⟨_, rfl, by decide⟩, rfl, by decide⟩
theorem test_HostOperationsFrame :
    Instr.shiftLeft.port = .hostOp ∧ ready.config = some display ∧ Instr.shiftLeft ≠ .flashLed
      ∧ (∀ text, Instr.shiftLeft = .print text → display.cols.toNat < text.length)
      ∧ ∃ t, exec .shiftLeft ready = .next t :=
  ⟨rfl, rfl, by decide, (by intro _ h; cases h), _, rfl⟩
theorem test_HiddenStateIsNeverSent : ∃ t, exec .shiftLeft ready = .next t := ⟨_, rfl⟩
theorem test_ConfigurationIsWrittenOnce : (∃ t, step ready = .next t) ∧ ready.config = some display := ⟨⟨_, rfl⟩, rfl⟩
theorem test_LogOnlyGrows : ∃ t, step (running [.op .cmdClear] []) = .next t := ⟨_, rfl⟩
theorem test_StepKeepsTheInvariant : ready.Inv ∧ ∃ t, step ready = .next t := ⟨ready_inv, _, rfl⟩
/-- ForbiddenBytesAreNeverSent: a block that has sent a byte. -/
theorem test_ForbiddenBytesAreNeverSent :
    let s : State := { ready with log := [.writeBytes 0x00#8 0x27#7 [0x4D#8] 1] }
    s.Inv ∧ Event.tx 0x4D#8 ∈ s.trace := by
  refine ⟨⟨ready_geometry, ready_bits, by decide, by decide, by decide, ?_, ?_⟩, by decide⟩
  · intro call h
    rcases List.mem_singleton.mp h with rfl
    exact ⟨rfl, rfl, rfl, 0x4D#8, rfl, by unfold busShape; decide⟩
  · intro _ h; cases h
theorem test_StepsRunTheWholeOperation : Instr.shiftLeft.port = .hostOp ∧ ∃ t, exec .shiftLeft ready = .next t :=
  ⟨rfl, _, rfl⟩
theorem test_ReceiverReadsThePrintedLine :
    ready.readyAs display ∧ ready.transportReturns ∧ controlBitsLegal ready.params = true
      ∧ (List.replicate 16 0x41#8).length ≤ display.cols.toNat
      ∧ (List.replicate 16 0x41#8).length ≤ lenMax ready.params display.cols
      ∧ ∃ t, exec (.print (List.replicate 16 0x41#8)) ready = .next t :=
  ⟨ready_readyAs, ready_transport, ready_bits, by decide, by decide,
    by simp [exec, execPrint, State.whenReady, ready, readyWith, State.reset, display, geometry, lenMax, defaultParams,
      perform]⟩
/-- ReceiverReadsTheInitSequence: both positions of the switch. -/
theorem test_ReceiverReadsTheInitSequence :
    ready.readyAs display ∧ ready.transportReturns ∧ controlBitsLegal ready.params = true
      ∧ ready.params.initSingleNibble = false ∧ (∃ t, exec .init ready = .next t)
      ∧ (single ready).readyAs display ∧ (single ready).transportReturns ∧ controlBitsLegal (single ready).params = true
      ∧ (single ready).params.initSingleNibble = true ∧ ∃ t, exec .init (single ready) = .next t :=
  ⟨ready_readyAs, ready_transport, ready_bits, rfl, ⟨_, rfl⟩, ⟨rfl, rfl⟩, by decide, by decide, rfl, _, rfl⟩

end Sys2Proof.Tests
end

section
/-! SUPPORT. The control lines of a legal configuration (R9): four single bits inside 0x0F that do not overlap, and the low four
bits of the transmitted bytes made from them (R87). -/

namespace Sys2Proof.Machine

/-! ### Single bits -/

theorem isControlBit_iff (b : Byte) : isControlBit b = true ↔ b = 0x01#8 ∨ b = 0x02#8 ∨ b = 0x04#8 ∨ b = 0x08#8 := by
  simp [isControlBit, or_assoc]

theorem isControlBit_and_low (b : Byte) (h : isControlBit b = true) : b &&& 0x0F#8 = b := by
  rcases (isControlBit_iff b).1 h with rfl | rfl | rfl | rfl <;> decide

/-- Two control bits that differ do not overlap. -/
theorem isControlBit_disjoint {a b : Byte} (ha : isControlBit a = true) (hb : isControlBit b = true) (hne : a ≠ b) :
    a &&& b = 0x00#8 := by
  rcases (isControlBit_iff a).1 ha with rfl | rfl | rfl | rfl <;>
    rcases (isControlBit_iff b).1 hb with rfl | rfl | rfl | rfl <;> revert hne <;> decide

theorem isControlBit_ne_zero {b : Byte} (h : isControlBit b = true) : b ≠ 0x00#8 := by
  rintro rfl
  exact absurd h (by decide)

/-! ### The four control lines -/

/-- What a legal configuration says about its control lines (R9), by name. -/
structure ControlLines (p : Params) : Prop where
  rs_bit : isControlBit p.rsBit = true
  rw_bit : isControlBit p.rwBit = true
  en_bit : isControlBit p.enBit = true
  bl_bit : isControlBit p.blBit = true
  rs_ne_rw : p.rsBit ≠ p.rwBit
  rs_ne_en : p.rsBit ≠ p.enBit
  rs_ne_bl : p.rsBit ≠ p.blBit
  rw_ne_en : p.rwBit ≠ p.enBit
  rw_ne_bl : p.rwBit ≠ p.blBit
  en_ne_bl : p.enBit ≠ p.blBit

theorem controlBitsLegal_iff (p : Params) : controlBitsLegal p = true ↔ ControlLines p := by
  simp only [controlBitsLegal, Bool.and_eq_true, bne_iff_ne]
  constructor
  · rintro ⟨⟨⟨⟨⟨⟨⟨⟨⟨rs, rw⟩, en⟩, bl⟩, h₁⟩, h₂⟩, h₃⟩, h₄⟩, h₅⟩, h₆⟩
    exact ⟨rs, rw, en, bl, h₁, h₂, h₃, h₄, h₅, h₆⟩
  · rintro ⟨rs, rw, en, bl, h₁, h₂, h₃, h₄, h₅, h₆⟩
    exact ⟨⟨⟨⟨⟨⟨⟨⟨⟨rs, rw⟩, en⟩, bl⟩, h₁⟩, h₂⟩, h₃⟩, h₄⟩, h₅⟩, h₆⟩

/-! ### Low four bits -/

/-- Control lines OR'd together stay inside the low four bits. -/
theorem or_and_low {a b : Byte} (ha : a &&& 0x0F#8 = a) (hb : b &&& 0x0F#8 = b) : (a ||| b) &&& 0x0F#8 = a ||| b := by
  rw [BitVec.and_or_distrib_right, ha, hb]

/-- Data in bits 7:4 leaves the low four bits to the control lines. -/
theorem data_or_and_low {d x : Byte} (hd : d &&& 0x0F#8 = 0x00#8) (hx : x &&& 0x0F#8 = x) :
    (d ||| x) &&& 0x0F#8 = x := by
  rw [BitVec.and_or_distrib_right, hd, hx, BitVec.zero_or]

/-- A line outside `a` makes a difference to it, whatever else is added. -/
theorem or_or_ne {a b c : Byte} (hab : b &&& a = 0x00#8) (hb : b ≠ 0x00#8) : a ||| b ||| c ≠ a := by
  intro h
  apply hb
  calc b = b &&& (a ||| b ||| c) := by ext i; grind
    _ = 0x00#8 := by rw [h, hab]

theorem high_and_low (v : Byte) : v &&& 0xF0#8 &&& 0x0F#8 = 0x00#8 := by
  rw [BitVec.and_assoc]; exact BitVec.and_zero

theorem nibble_and_low (data : Nibble) : (data ++ 0x0#4 : Byte) &&& 0x0F#8 = 0x00#8 := by
  revert data; decide

section
variable {p : Params} (h : controlBitsLegal p = true)
include h

theorem blBit_and_low : p.blBit &&& 0x0F#8 = p.blBit :=
  isControlBit_and_low _ ((controlBitsLegal_iff p).1 h).bl_bit

theorem highLines_and_low (mode : Mode) :
    (p.blBit ||| p.enBit ||| rsFlag p mode) &&& 0x0F#8 = p.blBit ||| p.enBit ||| rsFlag p mode := by
  have lines := (controlBitsLegal_iff p).1 h
  have hrs : rsFlag p mode &&& 0x0F#8 = rsFlag p mode := by
    cases mode with
    | command => exact BitVec.zero_and
    | character => exact isControlBit_and_low _ lines.rs_bit
  exact or_and_low (or_and_low (blBit_and_low h) (isControlBit_and_low _ lines.en_bit)) hrs

/-- Register-select tells high-phase control lines of the two modes apart. -/
theorem characterLines_ne_commandLines : p.blBit ||| p.enBit ||| p.rsBit ≠ p.blBit ||| p.enBit := by
  have lines := (controlBitsLegal_iff p).1 h
  have hrs : p.rsBit &&& (p.blBit ||| p.enBit) = 0x00#8 := by
    rw [BitVec.and_or_distrib_left, isControlBit_disjoint lines.rs_bit lines.bl_bit lines.rs_ne_bl,
      isControlBit_disjoint lines.rs_bit lines.en_bit lines.rs_ne_en, BitVec.zero_or]
  simpa using or_or_ne (c := 0x00#8) hrs (isControlBit_ne_zero lines.rs_bit)

/-- Enable tells a high-phase byte's control lines from the backlight alone. -/
theorem highLines_ne_blBit (mode : Mode) : p.blBit ||| p.enBit ||| rsFlag p mode ≠ p.blBit :=
  have lines := (controlBitsLegal_iff p).1 h
  or_or_ne (isControlBit_disjoint lines.en_bit lines.bl_bit lines.en_ne_bl) (isControlBit_ne_zero lines.en_bit)

/-- Masking enable, register-select and read/write out of high-phase control lines leaves the backlight (R142). -/
theorem highLines_masked (mode : Mode) :
    (p.blBit ||| p.enBit ||| rsFlag p mode) &&& ~~~(p.enBit ||| p.rsBit ||| p.rwBit) = p.blBit := by
  have lines := (controlBitsLegal_iff p).1 h
  have hen := isControlBit_disjoint lines.en_bit lines.bl_bit lines.en_ne_bl
  have hrs := isControlBit_disjoint lines.rs_bit lines.bl_bit lines.rs_ne_bl
  have hrw := isControlBit_disjoint lines.rw_bit lines.bl_bit lines.rw_ne_bl
  ext i hi
  have hen_i := congrArg (·[i]) hen
  have hrs_i := congrArg (·[i]) hrs
  have hrw_i := congrArg (·[i]) hrw
  cases mode <;> grind [rsFlag]

end

/-! ### The shapes of transmitted bytes -/

/-- A high-phase byte: its low four bits are backlight and enable, and register-select in mode Character (R87). -/
def highShape (p : Params) (b : Byte) : Prop :=
  ∃ mode, b &&& 0x0F#8 = p.blBit ||| p.enBit ||| rsFlag p mode

theorem busShape_of_highShape {p : Params} {b : Byte} : highShape p b → busShape p b := by
  rintro ⟨_ | _, hb⟩
  · exact .inl (by simpa [rsFlag] using hb)
  · exact .inr (.inl hb)

section
variable {p : Params} (h : controlBitsLegal p = true)
include h

theorem highShape_data_or {d : Byte} (hd : d &&& 0x0F#8 = 0x00#8) (mode : Mode) :
    highShape p (d ||| p.blBit ||| p.enBit ||| rsFlag p mode) := by
  refine ⟨mode, ?_⟩
  simpa only [BitVec.or_assoc] using data_or_and_low hd (highLines_and_low h mode)

theorem busShape_lowPhase {n : Byte} (hn : highShape p n) : busShape p (lowPhase p n) := by
  obtain ⟨mode, hn⟩ := hn
  refine .inr (.inr ?_)
  calc lowPhase p n &&& 0x0F#8
      = n &&& 0x0F#8 &&& ~~~(p.enBit ||| p.rsBit ||| p.rwBit) := by
        unfold lowPhase; rw [BitVec.and_assoc, BitVec.and_comm (~~~_), BitVec.and_assoc]
    _ = p.blBit := by rw [hn, highLines_masked h mode]

theorem busShape_blBit : busShape p p.blBit := .inr (.inr (blBit_and_low h))

end

end Sys2Proof.Machine
end

section
/-! SUPPORT. The decoder reads back what the encoder writes: a lemma per format, then the round trip (O1). -/

namespace Sys2Proof

/-! ### PRINT's length -/

theorem length_of_bytes {n : Nat} (h : n ≤ 0xFFFF) :
    (BitVec.ofNat 8 n).toNat + 256 * (BitVec.ofNat 8 (n / 256)).toNat = n := by
  simp only [BitVec.toNat_ofNat]
  omega

theorem decodePrint_encoded {text : List Byte} (h : text.length ≤ Instr.maxTextLength) :
    decodePrint (BitVec.ofNat 8 text.length :: BitVec.ofNat 8 (text.length / 256) :: text) = .ok (.print text) := by
  simp only [decodePrint, length_of_bytes h, lt_irrefl, if_false]

theorem decodeConstruct_encoded (args : Option ConstructArgs) :
    decodeConstruct (encodeConstruct args) = .ok (.construct args) := by
  cases args <;> rfl

/-! ### Set-DDRAM-Address -/

section
variable {p : Params}

/-- The address is in bits 6:0 (R97). -/
theorem extractLsb'_setDdramWord (h : p.setDdram.extractLsb' 0 7 = 0#7) (address : Addr7) :
    (setDdramWord p address).extractLsb' 0 7 = address := by
  simp only [setDdramWord, BitVec.extractLsb'_or, h, BitVec.zero_or]
  revert address; decide

theorem isSetDdramWord_setDdramWord (h : p.setDdram.extractLsb' 0 7 = 0#7) (address : Addr7) :
    isSetDdramWord p (setDdramWord p address) = true := by
  simp [isSetDdramWord, extractLsb'_setDdramWord h]

/-- Where no plain command is a Set-DDRAM-Address command, such a command is decoded as what it is. -/
theorem decodeCommand_setDdramWord (h : p.setDdram.extractLsb' 0 7 = 0#7)
    (hplain : ∀ b ∈ Machine.plainCommands p, isSetDdramWord p b = false) (address : Addr7) :
    decodeCommand p (setDdramWord p address) = .ok (.cmdSetDdram address) := by
  have hword := isSetDdramWord_setDdramWord h address
  have hne : ∀ b ∈ Machine.plainCommands p, setDdramWord p address ≠ b := by
    rintro b hb rfl
    simp [hplain _ hb] at hword
  simp only [Machine.plainCommands, List.forall_mem_cons] at hne
  obtain ⟨h₁, h₂, h₃, h₄, h₅, h₆, h₇, -⟩ := hne
  simp [decodeCommand, *, extractLsb'_setDdramWord h]

/-! ### Plain commands -/

/-- Plain commands that differ are each decoded as themselves. -/
theorem decode_plainCommand (h : (Machine.plainCommands p).Nodup) :
    ∀ i ∈ [Instr.cmdFunctionSet, .cmdEntryMode, .cmdClear, .cmdHome, .cmdDisplayOn, .cmdShiftLeft, .cmdShiftRight],
      decode p .command (encode p i) = .ok i := by
  -- the other way round, since the decoder compares a word with the ones before it
  have hne : [p.shiftRight, p.shiftLeft, p.displayOn, p.home, p.clear, p.entryMode, p.functionSet].Nodup :=
    List.nodup_reverse.2 h
  simp only [List.nodup_cons, List.mem_cons, not_or] at hne
  simp [decode, encode, decodeOneByte, decodeCommand, hne]

end

/-! ### Transmitted bytes -/

/-- The data is in bits 7:4, above the control lines (R80). -/
theorem extractLsb'_busWord {lines : Byte} (h : lines &&& 0x0F#8 = lines) (data : Nibble) :
    (busWord data lines).extractLsb' 4 4 = data := by
  have hlines : lines.extractLsb' 4 4 = 0x0#4 := by
    rw [← h, BitVec.extractLsb'_and]
    exact BitVec.and_zero
  have hdata : (data ++ 0x0#4 : Byte).extractLsb' 4 4 = data := by revert data; decide
  rw [busWord, BitVec.extractLsb'_or, hlines, hdata, BitVec.or_zero]

/-- Bytes with the same data differ where their control lines do. -/
theorem busWord_inj {a b : Byte} (ha : a &&& 0x0F#8 = a) (hb : b &&& 0x0F#8 = b) (data : Nibble) :
    busWord data a = busWord data b ↔ a = b := by
  refine ⟨fun h => ?_, congrArg _⟩
  have hdata := Machine.nibble_and_low data
  rw [← Machine.data_or_and_low hdata ha, ← Machine.data_or_and_low hdata hb]
  exact congrArg (· &&& 0x0F#8) h

/-- Each of the three shapes of R87 is decoded as itself when the control lines are legal. -/
theorem decodePulse_busWord {p : Params} (h : Machine.controlBitsLegal p = true) (data : Nibble) :
    decodePulse p (busWord data (p.blBit ||| p.enBit)) = .ok (.busHighCommand data)
      ∧ decodePulse p (busWord data (p.blBit ||| p.enBit ||| p.rsBit)) = .ok (.busHighCharacter data)
      ∧ decodePulse p (busWord data p.blBit) = .ok (.busLowPhase data) := by
  have hlow := Machine.blBit_and_low h
  have hcommand : (p.blBit ||| p.enBit) &&& 0x0F#8 = p.blBit ||| p.enBit := by
    simpa [Machine.rsFlag] using Machine.highLines_and_low h .command
  have hcharacter : (p.blBit ||| p.enBit ||| p.rsBit) &&& 0x0F#8 = p.blBit ||| p.enBit ||| p.rsBit :=
    Machine.highLines_and_low h .character
  have hbl_command : p.blBit ≠ p.blBit ||| p.enBit := by
    simpa [Machine.rsFlag] using (Machine.highLines_ne_blBit h .command).symm
  have hbl_character : p.blBit ≠ p.blBit ||| p.enBit ||| p.rsBit := (Machine.highLines_ne_blBit h .character).symm
  refine ⟨?_, ?_, ?_⟩
  · simp only [decodePulse, extractLsb'_busWord hcommand, if_true]
  · simp only [decodePulse, extractLsb'_busWord hcharacter, busWord_inj hcharacter hcommand,
      Machine.characterLines_ne_commandLines h, if_true, if_false]
  · simp only [decodePulse, extractLsb'_busWord hlow, busWord_inj hlow hcommand, busWord_inj hlow hcharacter,
      hbl_command, hbl_character, if_true, if_false]

/-! ### The round trip -/

/-- Settles O1, by cases on the instruction: each has its own place, and the place's words are apart. -/
theorem decodeOfEncode : Obligations.DecodeOfEncode := by
  intro p i hwf happart
  cases i with
  | construct args => exact decodeConstruct_encoded args
  | print text => exact decodePrint_encoded (of_decide_eq_true hwf)
  | init | moveCursor | shiftLeft | shiftRight | flashLed | reserved7 | character => rfl
  | resetByte => exact if_pos rfl
  | mode4Byte => exact (if_neg (Ne.symm happart)).trans (if_pos rfl)
  | cmdFunctionSet | cmdEntryMode | cmdClear | cmdHome | cmdDisplayOn | cmdShiftLeft | cmdShiftRight =>
    exact decode_plainCommand happart.1 _ (by decide)
  | cmdSetDdram address =>
    obtain ⟨-, haddress, hplain⟩ := happart
    exact decodeCommand_setDdramWord haddress hplain address
  | busHighCommand data => exact (decodePulse_busWord happart data).1
  | busHighCharacter data => exact (decodePulse_busWord happart data).2.1
  | busLowPhase data => exact (decodePulse_busWord happart data).2.2
  | busBacklightOnly => exact if_pos rfl

end Sys2Proof
end

section
/-! SUPPORT. Legal configurations as propositions (R9), what CONSTRUCT accepts (O13) and the state out of reset (O44). -/

namespace Sys2Proof.Machine

theorem geometryLegal_iff (base : RowBases) (rows cols address : Byte) :
    geometryLegal base rows cols address = true ↔
      1 ≤ rows.toNat ∧ rows.toNat ≤ 4 ∧ 1 ≤ cols.toNat
        ∧ (∀ r, r < rows.toNat → (baseOf base r).toNat + cols.toNat - 1 ≤ 0x7F) ∧ address.toNat ≤ 0x7F := by
  simp only [geometryLegal, Bool.and_eq_true, decide_eq_true_eq, List.all_eq_true, List.mem_range, and_assoc]

/-- The row table as a list of numbers, inside its four rows (R21). -/
theorem bases_getD (base : RowBases) {r : Nat} (h : r < 4) : (bases base).getD r 0 = (baseOf base r).toNat := by
  match r, h with
  | 0, _ => rfl
  | 1, _ => rfl
  | 2, _ => rfl
  | 3, _ => rfl

/-- A control bit is one of the four powers of two below 16 (R9). -/
theorem isControlBit_iff_pow (b : Byte) : isControlBit b = true ↔ ∃ k : Nat, k < 4 ∧ b.toNat = 2 ^ k := by
  revert b; decide

theorem controlBitsLegal_iff_nodup (p : Params) :
    controlBitsLegal p = true ↔
      (∀ bit ∈ [p.rsBit, p.rwBit, p.enBit, p.blBit], ∃ k : Nat, k < 4 ∧ bit.toNat = 2 ^ k)
        ∧ [p.rsBit, p.rwBit, p.enBit, p.blBit].Nodup := by
  simp only [← isControlBit_iff_pow]
  simp [controlBitsLegal, and_assoc]

/-- CONSTRUCT of an idle block without a configuration (R9, R120). -/
theorem execConstruct_idle {s : State} (hs : s.seq = .idle) (hc : s.config = none) (a : ConstructArgs) :
    exec (.construct (some a)) s =
      if configurationLegal s.params a then
        perform (configurationOf s.params a) (.construct (some a)) (initItems s.params) (s.setUp a)
      else .refused .illegalConfiguration := by
  simp only [exec, execConstruct, hs, hc]
  rfl

/-- R9 spelled out. -/
theorem configurationLegal_iff (p : Params) (a : ConstructArgs) :
    configurationLegal p a = true ↔
      1 ≤ a.rows.toNat ∧ a.rows.toNat ≤ 4 ∧ 1 ≤ a.columns.toNat ∧ a.columns.toNat ≤ 255
        ∧ (∀ r, r < a.rows.toNat → (bases p.base).getD r 0 + a.columns.toNat - 1 ≤ 0x7F)
        ∧ a.address.toNat ≤ 0x7F
        ∧ (∀ bit ∈ [p.rsBit, p.rwBit, p.enBit, p.blBit], ∃ k : Nat, k < 4 ∧ bit.toNat = 2 ^ k)
        ∧ [p.rsBit, p.rwBit, p.enBit, p.blBit].Nodup := by
  rw [configurationLegal, Bool.and_eq_true, geometryLegal_iff, controlBitsLegal_iff_nodup]
  have hcols : a.columns.toNat ≤ 255 := by omega
  have hbases (hrows : a.rows.toNat ≤ 4) {r : Nat} (hr : r < a.rows.toNat) :=
    bases_getD p.base (Nat.lt_of_lt_of_le hr hrows)
  constructor
  · rintro ⟨⟨h₁, hrows, h₃, hrow, h₅⟩, hbits, hnodup⟩
    exact ⟨h₁, hrows, h₃, hcols, fun r hr => hbases hrows hr ▸ hrow r hr, h₅, hbits, hnodup⟩
  · rintro ⟨h₁, hrows, h₃, -, hrow, h₅, hbits, hnodup⟩
    exact ⟨⟨h₁, hrows, h₃, fun r hr => hbases hrows hr ▸ hrow r hr, h₅⟩, hbits, hnodup⟩

/-- Settles O13: CONSTRUCT tests `configurationLegal`, which is R9. -/
theorem onlyLegalConfigurations : Obligations.OnlyLegalConfigurations := by
  intro s a hs hc
  simp only [← configurationLegal_iff, execConstruct_idle hs hc]
  exact ⟨fun h => ⟨_, if_pos h⟩, fun h => if_neg h⟩

/-- Settles O44: each field of the reset state is the value stated. -/
theorem resetState : Obligations.ResetState := by
  unfold Obligations.ResetState
  decide

end Sys2Proof.Machine
end

section
/-! SUPPORT. The invariant of the block (R9, R26, R29, R54, R60, R87) is kept: by each named update, by a bottom step, by the lines
of an operation, by an instruction, by a step (O46). -/

namespace Sys2Proof.Machine

theorem inv_of_config {s : State} {c : Configuration} (h : s.config = some c) : s.Inv ↔ s.constructed c := by
  simp only [State.Inv, h]

theorem inv_of_no_config {s : State} (h : s.config = none) : s.Inv ↔ s.unconstructed := by
  simp only [State.Inv, h]

section
variable {s : State} {c : Configuration} (h : s.constructed c)
include h

theorem constructed_geometry : geometryLegal c.base c.rows c.cols (c.i2cAddr.setWidth 8) = true := h.1

theorem constructed_controlBits : controlBitsLegal s.params = true := h.2.1

/-- The lines an operation in progress still has to run are allowed. -/
theorem constructed_rest {op : Instr} {results : List TxResult} {rest : List Item} (hs : s.seq = .busy op results rest) :
    ∀ it ∈ rest, it.allowed s.params c := by
  obtain ⟨-, -, -, -, -, -, hpending⟩ := h
  simpa [hs, Seq.pending] using hpending

end

/-- Only a configured block has an operation in progress. -/
theorem constructed_of_busy {s : State} {op : Instr} {results : List TxResult} {rest : List Item} (h : s.Inv)
    (hs : s.seq = .busy op results rest) :
    ∃ c, s.config = some c ∧ s.constructed c := by
  cases hc : s.config with
  | none =>
    obtain ⟨hidle, -⟩ := (inv_of_no_config hc).1 h
    cases hs.symm.trans hidle
  | some c => exact ⟨c, rfl, (inv_of_config hc).1 h⟩

/-! ### The lines still to run -/

@[simp] theorem record_pending (s : State) (ret : Int) : (s.record ret).seq.pending = s.seq.pending := by
  cases h : s.seq <;> simp [State.record, h, Seq.pending]

theorem setRest_pending (s : State) (rest : List Item) :
    (s.setRest rest).seq.pending = rest ∨ (s.setRest rest).seq.pending = [] := by
  cases h : s.seq <;> simp [State.setRest, h, Seq.pending]

/-! ### The named updates -/

section
variable {s : State} {c : Configuration} (h : s.constructed c)
include h

theorem constructed_called {call : Call} (hcall : call.allowed s.params c) : (s.called call).constructed c := by
  obtain ⟨hgeo, hbits, hrow, hcol, hbuf, hlog, hpending⟩ := h
  refine ⟨hgeo, hbits, hrow, hcol, hbuf, fun call' hmem => ?_, hpending⟩
  rcases List.mem_append.1 hmem with hmem | hmem
  · exact hlog call' hmem
  · exact List.mem_singleton.1 hmem ▸ hcall

theorem constructed_dropReply : s.dropReply.constructed c := by
  simpa [State.constructed] using h

theorem constructed_record (ret : Int) : (s.record ret).constructed c := by
  simpa [State.constructed] using h

theorem constructed_setCursor {row col : Byte} (hrow : row.toNat < c.rows.toNat) (hcol : col.toNat < c.cols.toNat) :
    (s.setCursor row col).constructed c := by
  obtain ⟨hgeo, hbits, -, -, hrest⟩ := h
  exact ⟨hgeo, hbits, hrow, hcol, hrest⟩

theorem constructed_setBuffer {codes : List Byte} (hlen : codes.length = c.cols.toNat) :
    (s.setBuffer codes).constructed c := by
  obtain ⟨hgeo, hbits, hrow, hcol, -, hrest⟩ := h
  exact ⟨hgeo, hbits, hrow, hcol, hlen, hrest⟩

theorem constructed_accept (op : Instr) {items : List Item} (hitems : ∀ it ∈ items, it.allowed s.params c) :
    (s.accept op items).constructed c := by
  obtain ⟨hgeo, hbits, hrow, hcol, hbuf, hlog, -⟩ := h
  exact ⟨hgeo, hbits, hrow, hcol, hbuf, hlog, hitems⟩

theorem constructed_setRest {rest : List Item} (hrest : ∀ it ∈ rest, it.allowed s.params c) :
    (s.setRest rest).constructed c := by
  obtain ⟨hgeo, hbits, hrow, hcol, hbuf, hlog, -⟩ := h
  have hpending : ∀ it ∈ (s.setRest rest).seq.pending, it.allowed s.params c := by
    rcases setRest_pending s rest with hp | hp <;> rw [hp]
    · exact hrest
    · exact List.forall_mem_nil _
  simpa [State.constructed, hgeo, hbits, hrow, hcol, hbuf] using And.intro hlog hpending

theorem constructed_complete : s.complete.constructed c := by
  obtain ⟨hgeo, hbits, hrow, hcol, hbuf, hlog, -⟩ := h
  simpa [State.constructed, hgeo, hbits, hrow, hcol, hbuf, Seq.pending] using hlog

/-! ### Bottom steps -/

theorem constructed_prim {q : Prim} {t : State} (hq : (Item.prim q).allowed s.params c) (ht : prim c q s = some t) :
    t.constructed c := by
  cases q with
  | tx b =>
    rcases tx_cases c b s with ⟨hnone, -⟩ | ⟨ret, -, hsome⟩
    · simp [prim, hnone] at ht
    · obtain rfl := Option.some.inj (hsome.symm.trans ht)
      refine constructed_record (constructed_called (constructed_dropReply h) ?_) ret
      exact ⟨rfl, rfl, rfl, b, rfl, by simpa [Item.allowed] using hq⟩
  | delay t => cases ht; exact constructed_called h trivial
  | setPin level => cases ht; exact constructed_called h rfl
  | setCursor row col => cases ht; exact constructed_setCursor h hq.1 hq.2

/-- Bottom steps that are allowed keep the invariant, finished or waiting. -/
theorem constructed_runPrims {qs : List Prim} (hqs : ∀ q ∈ qs, (Item.prim q).allowed s.params c) :
    (runPrims c qs s).1.constructed c := by
  refine (runPrims_induct c (fun t => t.params = s.params ∧ t.constructed c) qs ?_ s ⟨rfl, h⟩).1.2
  rintro q hq u u' ⟨hparams, hu⟩ hprim
  exact ⟨(prim_frame hprim).1.trans hparams, constructed_prim hu (hparams ▸ hqs q hq) hprim⟩

end

/-! ### The bottom steps of a line -/

section
variable {p : Params} (hbits : controlBitsLegal p = true) (c : Configuration)
include hbits

theorem sendNibble_allowed {n : Byte} (hn : highShape p n) : ∀ q ∈ sendNibble p n, (Item.prim q).allowed p c := by
  simp [sendNibble, Item.allowed, busShape_of_highShape hn, busShape_lowPhase hbits hn]

theorem sendByte_allowed (v : Byte) (mode : Mode) : ∀ q ∈ sendByte p v mode, (Item.prim q).allowed p c := by
  intro q hq
  rcases List.mem_append.1 hq with hq | hq
  · exact sendNibble_allowed hbits c (highShape_data_or hbits (high_and_low v) mode) q hq
  · exact sendNibble_allowed hbits c (highShape_data_or hbits (high_and_low (v <<< 4)) mode) q hq

theorem sendResetPhase_allowed (v : Byte) : ∀ q ∈ sendResetPhase p v, (Item.prim q).allowed p c := by
  unfold sendResetPhase
  split
  · refine sendNibble_allowed hbits c ?_
    simpa [rsFlag] using highShape_data_or hbits (high_and_low (v <<< 4)) .command
  · exact sendByte_allowed hbits c v .command

/-- A logical or transmitted byte is sent as bytes of a legal shape (R87). -/
theorem prims_allowed (i : Instr) : ∀ q ∈ prims p i, (Item.prim q).allowed p c := by
  have one {b : Byte} (hb : busShape p b) : ∀ q ∈ [Prim.tx b], (Item.prim q).allowed p c :=
    List.forall_mem_singleton.2 hb
  have high (data : Nibble) (mode : Mode) : highShape p (highPhaseByte p data mode) :=
    highShape_data_or hbits (nibble_and_low data) mode
  cases i with
  | construct | init | print | moveCursor | shiftLeft | shiftRight | flashLed | reserved7 =>
    exact List.forall_mem_nil _
  | resetByte | mode4Byte => exact sendResetPhase_allowed hbits c _
  | cmdFunctionSet | cmdEntryMode | cmdClear | cmdHome | cmdDisplayOn | cmdSetDdram | cmdShiftLeft | cmdShiftRight
  | character => exact sendByte_allowed hbits c _ _
  | busHighCommand data => exact one (busShape_of_highShape (high data .command))
  | busHighCharacter data => exact one (busShape_of_highShape (high data .character))
  | busLowPhase data => exact one (busShape_lowPhase hbits (high data .command))
  | busBacklightOnly => exact one (busShape_blBit hbits)

theorem itemPrims_allowed {it : Item} (hit : it.allowed p c) : ∀ q ∈ itemPrims p it, (Item.prim q).allowed p c := by
  cases it with
  | op i => exact prims_allowed hbits c i
  | prim q => exact List.forall_mem_singleton.2 hit

end

/-! ### Lines -/

/-- What is left of allowed bottom steps, and allowed lines after them, are allowed lines. -/
theorem left_allowed {p : Params} {c : Configuration} {qs left : List Prim} {rest : List Item} (hleft : left <:+ qs)
    (hqs : ∀ q ∈ qs, (Item.prim q).allowed p c) (hrest : ∀ it ∈ rest, it.allowed p c) :
    ∀ it ∈ left.map Item.prim ++ rest, it.allowed p c := by
  refine List.forall_mem_append.2 ⟨?_, hrest⟩
  exact List.forall_mem_map.2 fun q hq => hqs q (hleft.mem hq)

theorem runPrims_suffix (c : Configuration) (qs : List Prim) (s : State) : (runPrims c qs s).2 <:+ qs :=
  (runPrims_induct c (fun _ => True) qs (fun _ _ _ _ _ _ => trivial) s trivial).2

theorem runPrims_params (c : Configuration) (qs : List Prim) (s : State) : (runPrims c qs s).1.params = s.params :=
  (runPrims_frame c qs s).1

/-- Lines that are allowed keep the invariant, run to the end or waiting in one of them. -/
theorem constructed_runItems {c : Configuration} {items : List Item} {s : State} (h : s.constructed c)
    (hitems : ∀ it ∈ items, it.allowed s.params c) : (runItems c items s).constructed c := by
  induction items generalizing s with
  | nil => exact constructed_complete h
  | cons it its ih =>
    obtain ⟨hit, hits⟩ := List.forall_mem_cons.1 hitems
    have hprims := itemPrims_allowed (constructed_controlBits h) c hit
    have hrun := constructed_runPrims h hprims
    have hparams := runPrims_params c (itemPrims s.params it) s
    have hsuffix := runPrims_suffix c (itemPrims s.params it) s
    simp only [runItems]
    split
    · exact ih hrun (hparams.symm ▸ hits)
    · rename_i q qs hleft
      refine constructed_setRest hrun ?_
      rw [hparams, ← hleft]
      exact left_allowed hsuffix hprims hits

theorem constructed_arriveAt {s : State} {c : Configuration} (h : s.constructed c) {rest : List Item}
    (hrest : ∀ it ∈ rest, it.allowed s.params c) : (s.arriveAt rest).constructed c := by
  cases rest with
  | nil => exact constructed_complete h
  | cons it its => exact constructed_setRest h hrest

theorem constructed_advance {s : State} {c : Configuration} (h : s.constructed c) {qs : List Prim} {rest : List Item}
    (hqs : ∀ q ∈ qs, (Item.prim q).allowed s.params c) (hrest : ∀ it ∈ rest, it.allowed s.params c) :
    (advance c qs rest s).constructed c := by
  refine constructed_arriveAt (constructed_runPrims h hqs) ?_
  rw [runPrims_params]
  exact left_allowed (runPrims_suffix c qs s) hqs hrest

/-! ### The lines of the operations -/

/-- The first character cell is on every legal display. -/
theorem origin_allowed (p : Params) {c : Configuration} {address : Byte}
    (h : geometryLegal c.base c.rows c.cols address = true) : (Item.prim (.setCursor 0x00#8 0x00#8)).allowed p c := by
  obtain ⟨hrows, -, hcols, -, -⟩ := (geometryLegal_iff ..).1 h
  exact ⟨hrows, hcols⟩

theorem initItems_allowed (p : Params) {c : Configuration} {address : Byte}
    (h : geometryLegal c.base c.rows c.cols address = true) : ∀ it ∈ initItems p, it.allowed p c := by
  simpa [initItems, Item.allowed] using origin_allowed p h

theorem moveCursorItems_allowed (p : Params) (c : Configuration) (row col : Byte) :
    ∀ it ∈ moveCursorItems c row col, it.allowed p c := by
  intro it hit
  obtain ⟨hon, rfl | rfl⟩ := moveCursorItems_mem hit
  · trivial
  · simpa [onDisplay, Item.allowed] using hon

theorem characterItems_allowed (p : Params) (c : Configuration) (codes : List Byte) :
    ∀ it ∈ characterItems codes, it.allowed p c := by
  intro it hit
  obtain ⟨code, -, rfl⟩ := characterItems_mem hit
  trivial

theorem scrollItems_allowed (p : Params) (c : Configuration) (row : Byte) (text : List Byte) :
    ∀ it ∈ scrollItems p c row text, it.allowed p c := by
  intro it hit
  obtain hit | ⟨code, -, rfl⟩ | rfl := scrollItems_mem hit
  · exact moveCursorItems_allowed p c row 0x00#8 it hit
  · trivial
  · trivial

theorem flashItems_allowed (p : Params) (c : Configuration) : ∀ it ∈ flashItems p, it.allowed p c := by
  intro it hit
  obtain rfl | ⟨level, rfl⟩ := flashItems_mem hit <;> trivial

/-! ### Instructions and steps -/

/-- The set-up part of an accepted CONSTRUCT establishes the invariant. -/
theorem constructed_setUp {s : State} (hc : s.config = none) (h : s.Inv) {a : ConstructArgs}
    (ha : configurationLegal s.params a = true) : (s.setUp a).constructed (configurationOf s.params a) := by
  obtain ⟨hseq, hrow, hcol, hlog⟩ := (inv_of_no_config hc).1 h
  obtain ⟨hgeo, hbits⟩ := Bool.and_eq_true_iff.1 ha
  obtain ⟨hrows, -, hcols, -, haddress⟩ := (geometryLegal_iff ..).1 hgeo
  have hsame : (a.address.setWidth 7).setWidth 8 = a.address := by
    bv_omega
  refine ⟨?_, hbits, ?_, ?_, ?_, ?_, ?_⟩
  · simpa [configurationOf, hsame] using hgeo
  · exact hrow ▸ hrows
  · exact hcol ▸ hcols
  · simp [freeBuffer, configurationOf]
  · simp [hlog, Call.allowed, configurationOf]
  · simp [hseq, Seq.pending]

/-- An accepted host operation starts in a state that meets the invariant, with allowed lines before it. -/
theorem accepted_constructed {s s₀ : State} {i : Instr} {c : Configuration} {items : List Item} (h : s.Inv)
    (ha : Accepted s i c s₀ items) :
    s₀.constructed c ∧ ∀ it ∈ items, it.allowed s₀.params c := by
  cases ha with
  | construct args hc hl =>
    have hs₀ := constructed_setUp hc h hl
    exact ⟨hs₀, initItems_allowed _ (constructed_geometry hs₀)⟩
  | init _ hc =>
    have hs := (inv_of_config hc).1 h
    exact ⟨hs, initItems_allowed _ (constructed_geometry hs)⟩
  | printFit _ text hc hl =>
    refine ⟨constructed_setBuffer ((inv_of_config hc).1 h) ?_, characterItems_allowed _ _ _⟩
    rw [padded, List.length_append, List.length_replicate]
    omega
  | printScroll _ text hc => exact ⟨(inv_of_config hc).1 h, scrollItems_allowed _ _ _ _⟩
  | moveCursor _ row col hc => exact ⟨(inv_of_config hc).1 h, moveCursorItems_allowed _ _ _ _⟩
  | shiftLeft _ hc => exact ⟨(inv_of_config hc).1 h, List.forall_mem_singleton.2 trivial⟩
  | shiftRight _ hc => exact ⟨(inv_of_config hc).1 h, List.forall_mem_singleton.2 trivial⟩
  | flashLed _ hc => exact ⟨(inv_of_config hc).1 h, flashItems_allowed _ _⟩

theorem accepted_config {s s₀ : State} {i : Instr} {c : Configuration} {items : List Item}
    (ha : Accepted s i c s₀ items) : s₀.config = some c := by
  cases ha with
  | construct => rfl
  | init _ hc | printFit _ _ hc | printScroll _ _ hc | moveCursor _ _ _ hc | shiftLeft _ hc | shiftRight _ hc
  | flashLed _ hc => exact hc

theorem inv_runItems {s : State} {c : Configuration} {items : List Item} (hc : s.config = some c) (h : s.constructed c)
    (hitems : ∀ it ∈ items, it.allowed s.params c) : (runItems c items s).Inv := by
  obtain ⟨-, hconfig, -⟩ := runItems_frame c items s
  exact (inv_of_config (hconfig.trans hc)).2 (constructed_runItems h hitems)

theorem inv_advance {s : State} {c : Configuration} {qs : List Prim} {rest : List Item} (hc : s.config = some c)
    (h : s.constructed c) (hqs : ∀ q ∈ qs, (Item.prim q).allowed s.params c)
    (hrest : ∀ it ∈ rest, it.allowed s.params c) : (advance c qs rest s).Inv := by
  obtain ⟨-, hconfig, -⟩ := advance_frame c qs rest s
  exact (inv_of_config (hconfig.trans hc)).2 (constructed_advance h hqs hrest)

theorem exec_inv {i : Instr} {s t : State} (h : s.Inv) (ht : exec i s = .next t) : t.Inv := by
  by_cases hp : i.port = .hostOp
  · obtain ⟨-, c, s₀, items, ha, rfl⟩ := exec_hostOp_next hp ht
    obtain ⟨hs₀, hitems⟩ := accepted_constructed h ha
    exact inv_runItems ((State.accept_config ..).trans (accepted_config ha)) (constructed_accept hs₀ i hitems) hitems
  · rw [exec_inner hp] at ht
    obtain ⟨op, results, rest, c, hseq, hc, rfl⟩ := perOperation_next ht
    have hs := (inv_of_config hc).1 h
    exact inv_advance hc hs (prims_allowed (constructed_controlBits hs) c i) (constructed_rest hs hseq)

/-- Settles O46, by cases on what a step can do. -/
theorem stepKeepsTheInvariant : Obligations.StepKeepsTheInvariant := by
  intro s t h ht
  cases step_next ht with
  | request bytes i _ _ hexec => exact exec_inv h hexec
  | wait _ _ hsame => exact hsame ▸ h
  | done op results _ hs hdone =>
    obtain ⟨c, hc, hcon⟩ := constructed_of_busy h hs
    exact hdone ▸ (inv_of_config ((State.complete_config s).trans hc)).2 (constructed_complete hcon)
  | line op i results rest _ hs hexec =>
    obtain ⟨c, hc, hcon⟩ := constructed_of_busy h hs
    obtain ⟨-, hrest⟩ := List.forall_mem_cons.1 (constructed_rest hcon hs)
    exact exec_inv ((inv_of_config ((State.setRest_config s rest).trans hc)).2 (constructed_setRest hcon hrest)) hexec
  | prim op q results rest c _ hs hc hadvance =>
    have hcon := (inv_of_config hc).1 h
    obtain ⟨hq, hrest⟩ := List.forall_mem_cons.1 (constructed_rest hcon hs)
    exact hadvance ▸ inv_advance hc hcon (List.forall_mem_singleton.2 hq) hrest

end Sys2Proof.Machine
end

section
/-! SUPPORT. Which instruction or line a step runs (O4, O5, O6), and what an idle block accepts (O10, O14). -/

namespace Sys2Proof

/-! ### The well-formedness of requests -/

theorem decodeBare_ok {i j : Instr} {ops : List Byte} (h : decodeBare i ops = .ok j) : i = j := by
  cases ops with
  | nil => exact Except.ok.inj h
  | cons => cases h

theorem decodeConstruct_ok {ops : List Byte} {i : Instr} (h : decodeConstruct ops = .ok i) :
    ∃ args, i = .construct args := by
  unfold decodeConstruct at h
  split at h
  · cases h
  · split at h
    · exact ⟨_, (decodeBare_ok h).symm⟩
    · split at h
      · split at h
        · exact ⟨_, (Except.ok.inj h).symm⟩
        · cases h
        · cases h
      · cases h

/-- A text that is read from a request has the length its two length bytes give, so it has an encoding (R170). -/
theorem decodePrint_ok {ops : List Byte} {i : Instr} (h : decodePrint ops = .ok i) :
    ∃ text, i = .print text ∧ text.length ≤ Instr.maxTextLength := by
  unfold decodePrint at h
  split at h
  · rename_i lo hi text
    split at h
    · cases h
    · split at h
      · cases h
      · refine ⟨text, (Except.ok.inj h).symm, ?_⟩
        rw [Instr.maxTextLength]
        omega
  · cases h

theorem decodeMoveCursor_ok {ops : List Byte} {i : Instr} (h : decodeMoveCursor ops = .ok i) :
    ∃ row col, i = .moveCursor row col := by
  unfold decodeMoveCursor at h
  split at h
  · exact ⟨_, _, (Except.ok.inj h).symm⟩
  · cases h
  · cases h

/-- Every request that decodes is well-formed (R100). -/
theorem decodeHostOp_wellFormed {sel : Byte} {ops : List Byte} {i : Instr} (h : decodeHostOp sel ops = .ok i) :
    WellFormed i := by
  have bare {j : Instr} (hj : WellFormed j) (hi : decodeBare j ops = .ok i) : WellFormed i := decodeBare_ok hi ▸ hj
  unfold decodeHostOp at h
  split at h
  · obtain ⟨args, rfl⟩ := decodeConstruct_ok h; rfl
  split at h
  · exact bare rfl h
  split at h
  · obtain ⟨text, rfl, hlen⟩ := decodePrint_ok h; exact decide_eq_true hlen
  split at h
  · obtain ⟨row, col, rfl⟩ := decodeMoveCursor_ok h; rfl
  split at h
  · exact bare rfl h
  split at h
  · exact bare rfl h
  split at h
  · exact bare rfl h
  split at h
  · exact bare rfl h
  · cases h

theorem decode_hostOp_wellFormed {p : Params} {bytes : List Byte} {i : Instr} (h : decode p .hostOp bytes = .ok i) :
    WellFormed i := by
  cases bytes with
  | nil => cases h
  | cons sel ops => exact decodeHostOp_wellFormed h

end Sys2Proof

namespace Sys2Proof.Machine

/-! ### The step, one equation per case -/

section
variable {s : State}

theorem fetched_of_request {bytes : List Byte} (hr : s.request = some bytes) :
    s.fetched = some (decode s.params .hostOp bytes) := by
  simp only [State.fetched, hr, Option.map_some]

theorem fetched_without_request (hr : s.request = none) : s.fetched = none := by
  simp only [State.fetched, hr, Option.map_none]

theorem step_of_request {bytes : List Byte} {i : Instr} (hr : s.request = some bytes)
    (hd : decode s.params .hostOp bytes = .ok i) : step s = exec i s := by
  simp only [step, fetched_of_request hr, hd]

theorem step_of_undecodable {bytes : List Byte} {e : DecodeError} (hr : s.request = some bytes)
    (hd : decode s.params .hostOp bytes = .error e) : step s = .refused (.undecodable e) := by
  simp only [step, fetched_of_request hr, hd]

theorem step_idle (hr : s.request = none) (hs : s.seq = .idle) : step s = .next s := by
  simp only [step, fetched_without_request hr, hs]

section
variable {op : Instr} {results : List TxResult} {rest : List Item} (hr : s.request = none)
include hr

theorem step_op {i : Instr} (hs : s.seq = .busy op results (.op i :: rest)) : step s = exec i (s.setRest rest) := by
  simp only [step, fetched_without_request hr, hs]

theorem step_prim {q : Prim} {c : Configuration} (hs : s.seq = .busy op results (.prim q :: rest))
    (hc : s.config = some c) : step s = .next (advance c [q] rest s) := by
  simp only [step, fetched_without_request hr, hs, hc]

theorem step_done (hs : s.seq = .busy op results []) : step s = .next s.complete := by
  simp only [step, fetched_without_request hr, hs]

end

end

/-- Settles O4: the request is fetched and run, and what decodes is well-formed. -/
theorem stepRunsTheRequest : Obligations.StepRunsTheRequest := by
  intro s bytes i hr hd
  exact ⟨decode_hostOp_wellFormed hd, step_of_request hr hd⟩

/-- Settles O5, by cases on the line the operation stands at. -/
theorem stepRunsTheNextLine : Obligations.StepRunsTheNextLine := by
  intro s op results rest hr
  refine ⟨fun i hs => ?_, fun q c hs hc => step_prim hr hs hc, fun hs => step_done hr hs⟩
  have hrest : s.setRest rest = { s with seq := .busy op results rest } := by
    simp only [State.setRest, hs]
  rw [step_op hr hs, hrest]

/-- Settles O6: nothing is fetched, or what is fetched is no encoding. -/
theorem stepWithoutAnInstruction : Obligations.StepWithoutAnInstruction :=
  ⟨fun _ hr hs => step_idle hr hs, fun _ _ _ hr hd => step_of_undecodable hr hd⟩

/-! ### Acceptance -/

section
variable {s : State} {k : Configuration → Result}

theorem whenReady_readyAs {c : Configuration} (h : s.readyAs c) : s.whenReady k = k c := by
  obtain ⟨hs, hc⟩ := h
  simp only [State.whenReady, hs, hc]

theorem whenReady_without_config (hs : s.seq = .idle) (hc : s.config = none) :
    s.whenReady k = .refused .notConstructed := by
  simp only [State.whenReady, hs, hc]

end

/-- An idle block runs every operation it accepts: the converse of `exec_hostOp_next`. -/
theorem exec_of_accepted {s s₀ : State} {i : Instr} {c : Configuration} {items : List Item} (hs : s.seq = .idle)
    (ha : Accepted s i c s₀ items) : exec i s = perform c i items s₀ := by
  cases ha with
  | construct args hc hl => simp only [exec, execConstruct, hs, hc, hl, if_true]
  | printFit _ text hc hl hm =>
    exact (whenReady_readyAs ⟨hs, hc⟩).trans ((if_neg (Nat.not_lt.2 hm)).trans (if_pos hl))
  | printScroll _ text hc hl hm =>
    exact (whenReady_readyAs ⟨hs, hc⟩).trans ((if_neg (Nat.not_lt.2 hm)).trans (if_neg (Nat.not_le.2 hl)))
  | init _ hc | moveCursor _ _ _ hc | shiftLeft _ hc | shiftRight _ hc | flashLed _ hc =>
    exact whenReady_readyAs ⟨hs, hc⟩

/-- A logical or transmitted byte runs its bottom steps: the converse of `perOperation_next`. -/
theorem perOperation_runningAs {s : State} {c : Configuration} {op : Instr} {results : List TxResult} {rest : List Item}
    (h : s.runningAs c op results rest) (i : Instr) : perOperation i s = .next (advance c (prims s.params i) rest s) := by
  obtain ⟨hs, hc⟩ := h
  simp only [perOperation, hs, hc]

/-- Settles O10: every operation but CONSTRUCT and selector 7 asks for the configuration. -/
theorem nothingBeforeConstruct : Obligations.NothingBeforeConstruct := by
  refine ⟨rfl, fun s i hp hconstruct hreserved hs hc => ?_⟩
  cases i with
  | construct args => exact absurd rfl (hconstruct args)
  | reserved7 => exact absurd rfl hreserved
  | init | print | moveCursor | shiftLeft | shiftRight | flashLed => exact whenReady_without_config hs hc
  | resetByte | mode4Byte | cmdFunctionSet | cmdEntryMode | cmdClear | cmdHome | cmdDisplayOn | cmdSetDdram
  | cmdShiftLeft | cmdShiftRight | character | busHighCommand | busHighCharacter | busLowPhase | busBacklightOnly =>
    cases hp

section
variable {s : State} {c : Configuration} {text : List Byte} (h : s.readyAs c)
include h

theorem exec_print_accepted (hm : text.length ≤ lenMax s.params c.cols) : ∃ t, exec (.print text) s = .next t := by
  obtain ⟨hs, hc⟩ := h
  rcases Nat.lt_or_ge c.cols.toNat text.length with hlong | hfit
  · exact ⟨_, exec_of_accepted hs (.printScroll c text hc hlong hm)⟩
  · exact ⟨_, exec_of_accepted hs (.printFit c text hc hfit hm)⟩

theorem exec_print_too_long (hm : lenMax s.params c.cols < text.length) :
    exec (.print text) s = .refused .textTooLong :=
  (whenReady_readyAs h).trans (if_pos hm)

end

/-- Settles O14: the limit is `lenMax`, which PRINT tests. -/
theorem textLengthLimit : Obligations.TextLengthLimit := by
  intro s c text h limit
  have hlimit : limit = lenMax s.params c.cols := by
    unfold limit lenMax
    cases s.params.lenMax <;> rfl
  refine ⟨fun hle => exec_print_accepted h (hlimit ▸ hle), fun hlt => exec_print_too_long h (hlimit ▸ hlt), ?_⟩
  intro hdefault hle
  rw [hlimit, lenMax, hdefault, Option.getD_none] at hle
  omega

/-- Settles O45: the block out of reset is one before CONSTRUCT. -/
theorem resetMeetsTheInvariant : Obligations.ResetMeetsTheInvariant :=
  (inv_of_no_config rfl).2 ⟨rfl, rfl, rfl, rfl⟩

end Sys2Proof.Machine
end

section
/-! SUPPORT. The bottom steps of the operations' lines: the events they make are the ones the rules write out, and which of them
write the cursor registers or the LED level. -/

namespace Sys2Proof.Machine

/-! ### Bytes are sent as the rules say -/

/-- Masking the control lines but the backlight out of a high-phase byte leaves its data and the backlight (R142). -/
theorem lowPhase_data_or {p : Params} (h : controlBitsLegal p = true) {d : Byte} (hd : d &&& 0x0F#8 = 0x00#8)
    (mode : Mode) : lowPhase p (d ||| p.blBit ||| p.enBit ||| rsFlag p mode) = d ||| p.blBit := by
  have lines := (controlBitsLegal_iff p).1 h
  have hmask : (p.enBit ||| p.rsBit ||| p.rwBit) &&& 0x0F#8 = p.enBit ||| p.rsBit ||| p.rwBit :=
    or_and_low (or_and_low (isControlBit_and_low _ lines.en_bit) (isControlBit_and_low _ lines.rs_bit))
      (isControlBit_and_low _ lines.rw_bit)
  have hdata : d &&& ~~~(p.enBit ||| p.rsBit ||| p.rwBit) = d := by
    ext i hi
    have hd_i := congrArg (·[i]) hd
    have hmask_i := congrArg (·[i]) hmask
    grind
  calc lowPhase p (d ||| p.blBit ||| p.enBit ||| rsFlag p mode)
      = (d ||| (p.blBit ||| p.enBit ||| rsFlag p mode)) &&& ~~~(p.enBit ||| p.rsBit ||| p.rwBit) := by
        simp only [lowPhase, BitVec.or_assoc]
    _ = d ||| p.blBit := by rw [BitVec.and_or_distrib_right, hdata, highLines_masked h mode]

section
variable {p : Params} (h : controlBitsLegal p = true)
include h

theorem primEvents_sendByte (v : Byte) (mode : Mode) : primEvents (sendByte p v mode) = sendByteEvents p v mode := by
  have hm := lowPhase_data_or h (high_and_low v) mode
  have hl := lowPhase_data_or h (high_and_low (v <<< 4)) mode
  simp only [sendByte, sendNibblePair, sendNibble, frame, hm, hl]
  cases mode <;> rfl

theorem primEvents_sendResetPhase (v : Byte) : primEvents (sendResetPhase p v) = resetPhaseEvents p v := by
  unfold sendResetPhase resetPhaseEvents
  split
  · have hl := lowPhase_data_or h (high_and_low (v <<< 4)) .command
    simp only [rsFlag, BitVec.or_zero] at hl
    simp only [sendNibble, hl]
    rfl
  · exact primEvents_sendByte h v .command

theorem primEvents_initItems : primEvents ((initItems p).flatMap (itemPrims p)) = initEvents p := by
  simp [initItems, initEvents, itemPrims, prims, primEvents_sendByte h, primEvents_sendResetPhase h]

end

/-! ### Cursor moves on and off the display -/

theorem onDisplay_iff (c : Configuration) (row col : Byte) :
    onDisplay c row col = true ↔ row.toNat < c.rows.toNat ∧ col.toNat < c.cols.toNat := by
  simp [onDisplay]

theorem moveCursorItems_on {c : Configuration} {row col : Byte}
    (h : row.toNat < c.rows.toNat ∧ col.toNat < c.cols.toNat) :
    moveCursorItems c row col
      = [.op (.cmdSetDdram (ddramAddress c.base row col))] ++ [.prim (.setCursor row col)] :=
  if_pos ((onDisplay_iff ..).2 h)

theorem moveCursorItems_off {c : Configuration} {row col : Byte}
    (h : ¬ (row.toNat < c.rows.toNat ∧ col.toNat < c.cols.toNat)) : moveCursorItems c row col = [] :=
  if_neg (mt (onDisplay_iff ..).1 h)

/-! ### Lines that write neither the cursor registers nor the LED level -/

/-- No bottom step of the line writes the cursor registers. -/
def Item.keepsCursor (it : Item) : Prop := ∀ p, ∀ q ∈ itemPrims p it, q.keepsCursor

/-- No bottom step of the line writes the LED level. -/
def Item.keepsLevel (it : Item) : Prop := ∀ p, ∀ q ∈ itemPrims p it, q.keepsLevel

@[simp] theorem op_keepsCursor (i : Instr) : (Item.op i).keepsCursor := fun p q hq => (prims_keeps p i q hq).1

@[simp] theorem op_keepsLevel (i : Instr) : (Item.op i).keepsLevel := fun p q hq => (prims_keeps p i q hq).2

@[simp] theorem delay_keepsCursor (t : Nat) : (Item.prim (.delay t)).keepsCursor :=
  fun _ => List.forall_mem_singleton.2 fun _ => rfl

@[simp] theorem delay_keepsLevel (t : Nat) : (Item.prim (.delay t)).keepsLevel :=
  fun _ => List.forall_mem_singleton.2 fun _ => rfl

@[simp] theorem setPin_keepsCursor (level : Bool) : (Item.prim (.setPin level)).keepsCursor :=
  fun _ => List.forall_mem_singleton.2 fun _ => rfl

@[simp] theorem setCursor_keepsLevel (row col : Byte) : (Item.prim (.setCursor row col)).keepsLevel :=
  fun _ => List.forall_mem_singleton.2 fun _ => rfl

theorem characterItems_keepsCursor (codes : List Byte) : ∀ it ∈ characterItems codes, it.keepsCursor := by
  intro it hit
  obtain ⟨code, -, rfl⟩ := characterItems_mem hit
  exact op_keepsCursor _

theorem flashItems_keepsCursor (p : Params) : ∀ it ∈ flashItems p, it.keepsCursor := by
  intro it hit
  obtain rfl | ⟨level, rfl⟩ := flashItems_mem hit
  · exact delay_keepsCursor _
  · exact setPin_keepsCursor _

/-- INIT writes the cursor registers in its last line, and in no other (R40). -/
theorem initItems_eq (p : Params) :
    ∃ lines, initItems p = lines ++ [.prim (.setCursor 0x00#8 0x00#8)] ∧ ∀ it ∈ lines, it.keepsCursor :=
  ⟨(initItems p).dropLast, rfl, by simp [initItems]⟩

/-- FLASH_LED is the only operation whose lines write the LED level (R211). -/
theorem accepted_keepsLevel {s s₀ : State} {i : Instr} {c : Configuration} {items : List Item}
    (ha : Accepted s i c s₀ items) (hi : i ≠ .flashLed) : ∀ it ∈ items, it.keepsLevel := by
  have move (row col : Byte) : ∀ it ∈ moveCursorItems c row col, it.keepsLevel := by
    intro it hit
    obtain ⟨-, rfl | rfl⟩ := moveCursorItems_mem hit
    · exact op_keepsLevel _
    · exact setCursor_keepsLevel _ _
  cases ha with
  | construct | init => simp [initItems]
  | printFit =>
    intro it hit
    obtain ⟨code, -, rfl⟩ := characterItems_mem hit
    exact op_keepsLevel _
  | printScroll =>
    intro it hit
    obtain hit | ⟨code, -, rfl⟩ | rfl := scrollItems_mem hit
    · exact move _ _ it hit
    · exact op_keepsLevel _
    · exact delay_keepsLevel _
  | moveCursor => exact move _ _
  | shiftLeft | shiftRight => exact List.forall_mem_singleton.2 (op_keepsLevel _)
  | flashLed => exact absurd rfl hi

/-! ### The cursor and the level after bottom steps that keep them -/

theorem foldl_cursor_of_keeps {qs : List Prim} (h : ∀ q ∈ qs, q.keepsCursor) (rc : Byte × Byte) :
    qs.foldl Prim.cursor rc = rc := by
  induction qs with
  | nil => rfl
  | cons q qs ih =>
    obtain ⟨hq, hqs⟩ := List.forall_mem_cons.1 h
    rw [List.foldl_cons, hq rc, ih hqs]

theorem foldl_level_of_keeps {qs : List Prim} (h : ∀ q ∈ qs, q.keepsLevel) (level : Bool) :
    qs.foldl Prim.level level = level := by
  induction qs with
  | nil => rfl
  | cons q qs ih =>
    obtain ⟨hq, hqs⟩ := List.forall_mem_cons.1 h
    rw [List.foldl_cons, hq level, ih hqs]

/-- Steps that write nothing but `(row, 0)` move a cursor on that row to column 0, when one of them writes at all. -/
theorem foldl_cursor_home {row : Byte} {qs : List Prim} (h : ∀ q ∈ qs, q.keepsCursor ∨ q = .setCursor row 0x00#8)
    (col : Byte) :
    qs.foldl Prim.cursor (row, col) = (row, if .setCursor row 0x00#8 ∈ qs then 0x00#8 else col) := by
  induction qs generalizing col with
  | nil => rfl
  | cons q qs ih =>
    obtain ⟨hq, hqs⟩ := List.forall_mem_cons.1 h
    rcases hq with hq | rfl
    · have hne : Prim.setCursor row 0x00#8 ≠ q := by
        rintro rfl
        have hmoved := hq (row, 0x01#8)
        simp [Prim.cursor] at hmoved
      rw [List.foldl_cons, hq, ih hqs]
      simp [hne]
    · rw [List.foldl_cons, Prim.cursor, ih hqs]
      simp

theorem flatMap_keepsCursor {items : List Item} (h : ∀ it ∈ items, it.keepsCursor) (p : Params) :
    ∀ q ∈ items.flatMap (itemPrims p), q.keepsCursor := by
  intro q hq
  obtain ⟨it, hit, hq⟩ := List.mem_flatMap.1 hq
  exact h it hit p q hq

theorem flatMap_keepsLevel {items : List Item} (h : ∀ it ∈ items, it.keepsLevel) (p : Params) :
    ∀ q ∈ items.flatMap (itemPrims p), q.keepsLevel := by
  intro q hq
  obtain ⟨it, hit, hq⟩ := List.mem_flatMap.1 hq
  exact h it hit p q hq

end Sys2Proof.Machine
end

section
/-! SUPPORT. INIT and CONSTRUCT when every bus write returns (O23, O25). -/

namespace Sys2Proof.Machine

theorem initItems_foldl_cursor (p : Params) (rc : Byte × Byte) :
    ((initItems p).flatMap (itemPrims p)).foldl Prim.cursor rc = (0x00#8, 0x00#8) := by
  obtain ⟨lines, heq, -⟩ := initItems_eq p
  rw [heq, List.flatMap_append, List.foldl_append]
  rfl

theorem initItems_foldl_level (p : Params) (level : Bool) :
    ((initItems p).flatMap (itemPrims p)).foldl Prim.level level = level :=
  foldl_level_of_keeps (flatMap_keepsLevel (by simp [initItems]) p) level

/-- The lines of INIT, for either of the two operations that run them (R122, R264). -/
theorem perform_initItems {s : State} (c : Configuration) (op : Instr) (hr : s.transportReturns)
    (h : controlBitsLegal s.params = true) :
    perform c op (initItems s.params) s =
      .next { s.afterOperation c (initEvents s.params) with curRow := 0x00#8, curCol := 0x00#8 } := by
  rw [perform_returns c op _ s hr, primEvents_initItems h, initItems_foldl_cursor, initItems_foldl_level]
  rfl

/-- Settles O23: INIT is accepted by a ready block and runs its lines. -/
theorem initRunsTheWholeSequence : Obligations.InitRunsTheWholeSequence := by
  intro s c ⟨hs, hc⟩ hr hbits
  exact (exec_of_accepted hs (.init c hc)).trans (perform_initItems c .init hr hbits)

/-- Settles O25: CONSTRUCT runs the lines of INIT from the state its set-up leaves. -/
theorem constructSetsUpAndInitialises : Obligations.ConstructSetsUpAndInitialises := by
  intro s args a c hs hc hr hlegal
  obtain ⟨-, hbits⟩ := Bool.and_eq_true_iff.1 hlegal
  refine ⟨_, (exec_of_accepted hs (.construct args hc hlegal)).trans (perform_initItems (s := s.setUp a) c _ hr hbits),
    rfl, rfl, rfl, rfl, rfl, ?_, rfl, rfl, rfl, _, rfl, resultsOf_length _ _ _ _ hr⟩
  exact (List.length_map _).trans List.length_range

end Sys2Proof.Machine
end

section
/-! SUPPORT. What a host operation of a configured block leaves unchanged (O40, O42), and which of them write the cursor registers
(O39). -/

namespace Sys2Proof.Machine

/-! ### The state the lines start from -/

/-- A configured block accepts an operation as it is, but for the buffer of a PRINT that fits (R171, R172). -/
theorem accepted_configured {s s₀ : State} {i : Instr} {c c' : Configuration} {items : List Item}
    (ha : Accepted s i c s₀ items) (hc : s.config = some c') :
    c = c' ∧ (s₀ = s ∨ ∃ text, i = .print text ∧ text.length ≤ c.cols.toNat
      ∧ s₀ = s.setBuffer (padded s.params c.cols text)) := by
  have same {d : Configuration} (hd : s.config = some d) : d = c' := Option.some.inj (hd.symm.trans hc)
  cases ha with
  | construct _ hnone => cases hnone.symm.trans hc
  | printFit _ text hd hl => exact ⟨same hd, .inr ⟨text, rfl, hl, rfl⟩⟩
  | init _ hd | printScroll _ _ hd | moveCursor _ _ _ hd | shiftLeft _ hd | shiftRight _ hd | flashLed _ hd =>
    exact ⟨same hd, .inl rfl⟩

theorem accepted_params {s s₀ : State} {i : Instr} {c : Configuration} {items : List Item}
    (ha : Accepted s i c s₀ items) : s₀.params = s.params := by
  cases ha <;> rfl

/-! ### Frames -/

/-- Lines that keep the LED level leave it as it is, run to the end or waiting. -/
theorem runItems_ledLevel (c : Configuration) {items : List Item} (h : ∀ it ∈ items, it.keepsLevel) (s : State) :
    (runItems c items s).ledLevel = s.ledLevel := by
  refine (runItems_induct c (fun t => t.params = s.params ∧ t.ledLevel = s.ledLevel) items ?_ ?_ s.params
    (fun t ht => ht.1) ?_ s ⟨rfl, rfl⟩).2
  · simp
  · simp
  · rintro it hit q hq u u' ⟨hparams, hlevel⟩ hprim
    exact ⟨(prim_frame hprim).1.trans hparams, (prim_cursor_level hprim).2.trans ((h it hit _ q hq _).trans hlevel)⟩

/-- Settles O40: the lines' frame, from the state the operation is accepted in. -/
theorem hostOperationsFrame : Obligations.HostOperationsFrame := by
  intro s t i c hp hc ht
  obtain ⟨-, c', s₀, items, ha, rfl⟩ := exec_hostOp_next hp ht
  have hlevel (hi : i ≠ .flashLed) := runItems_ledLevel c' (accepted_keepsLevel ha hi) (s₀.accept i items)
  obtain ⟨hparams, hconfig, hwbuf, hout, -, hlog⟩ := runItems_frame c' items (s₀.accept i items)
  obtain ⟨rfl, rfl | ⟨text, rfl, hfits, rfl⟩⟩ := accepted_configured ha hc
  · exact ⟨hparams, hconfig, hout, hlevel, fun _ => hwbuf, hlog⟩
  · exact ⟨hparams, hconfig, hout, hlevel, fun hlong => absurd (hlong text rfl) (Nat.not_lt.2 hfits), hlog⟩

theorem exec_params_config {s t : State} {i : Instr} (h : exec i s = .next t) :
    t.params = s.params ∧ ∀ c, s.config = some c → t.config = some c := by
  by_cases hp : i.port = .hostOp
  · obtain ⟨-, c', s₀, items, ha, rfl⟩ := exec_hostOp_next hp h
    obtain ⟨hparams, hconfig, -⟩ := runItems_frame c' items (s₀.accept i items)
    refine ⟨(hparams.trans (State.accept_params ..)).trans (accepted_params ha), fun c hc => ?_⟩
    obtain ⟨rfl, -⟩ := accepted_configured ha hc
    exact (hconfig.trans (State.accept_config ..)).trans (accepted_config ha)
  · rw [exec_inner hp] at h
    obtain ⟨op, results, rest, c', -, -, rfl⟩ := perOperation_next h
    obtain ⟨hparams, hconfig, -⟩ := advance_frame c' (prims s.params i) rest s
    exact ⟨hparams, fun c hc => hconfig.trans hc⟩

/-- Settles O42, by cases on what a step can do. -/
theorem configurationIsWrittenOnce : Obligations.ConfigurationIsWrittenOnce := by
  intro s t ht
  cases step_next ht with
  | request bytes i _ _ hexec => exact exec_params_config hexec
  | wait _ _ hsame => exact hsame ▸ ⟨rfl, fun _ hc => hc⟩
  | done op results _ _ hdone => simp [hdone]
  | line op i results rest _ _ hexec => simpa using exec_params_config hexec
  | prim op q results rest c' _ _ _ hadvance =>
    obtain ⟨hparams, hconfig, -⟩ := advance_frame c' [q] rest s
    exact hadvance ▸ ⟨hparams, fun c hc => hconfig.trans hc⟩

/-! ### The writers of the cursor registers -/

section
variable (c : Configuration) (s : State) (op : Instr) {items : List Item}

/-- An operation whose lines keep the cursor leaves it as it is, run to its end or waiting. -/
theorem runItems_cursor_of_keeps (h : ∀ it ∈ items, it.keepsCursor) :
    let t := runItems c items (s.accept op items)
    t.curRow = s.curRow ∧ t.curCol = s.curCol := by
  have hall := flatMap_keepsCursor h s.params
  simp only [← Prod.mk.injEq]
  rcases runItems_cursor c items _ op [] items (State.accept_seq s op items) with
    ⟨-, hfold⟩ | ⟨-, finished, b, left, hsplit, hfold⟩
  · exact hfold.trans (foldl_cursor_of_keeps hall _)
  · refine hfold.trans (foldl_cursor_of_keeps (fun q hq => hall q ?_) _)
    exact hsplit ▸ List.mem_append_left _ hq

/-- An operation that writes the cursor in its last line has written it when it is idle again, and not while it waits. -/
theorem runItems_cursor_last (row col : Byte) (h : ∀ it ∈ items, it.keepsCursor) :
    let lines := items ++ [.prim (.setCursor row col)]
    let t := runItems c lines (s.accept op lines)
    if t.seq = .idle then t.curRow = row ∧ t.curCol = col else t.curRow = s.curRow ∧ t.curCol = s.curCol := by
  intro lines t
  have hall := flatMap_keepsCursor h s.params
  have hprims : lines.flatMap (itemPrims s.params) = items.flatMap (itemPrims s.params) ++ [.setCursor row col] :=
    List.flatMap_append
  simp only [← Prod.mk.injEq]
  rcases runItems_cursor c lines _ op [] lines (State.accept_seq s op lines) with
    ⟨hidle, hfold⟩ | ⟨hbusy, finished, b, left, hsplit, hfold⟩
  · rw [if_pos hidle]
    refine hfold.trans ?_
    rw [State.accept_params, hprims, List.foldl_append]
    rfl
  · rw [if_neg hbusy]
    refine hfold.trans (foldl_cursor_of_keeps (fun q hq => hall q ?_) _)
    have hkept : items.flatMap (itemPrims s.params) = finished ++ (Prim.tx b :: left).dropLast := by
      rw [← List.dropLast_append_cons, ← hsplit, State.accept_params, hprims, List.dropLast_concat]
    exact hkept ▸ List.mem_append_left _ hq

end

/-! The scroll. -/

section
variable (p : Params) (c : Configuration) (row : Byte) (text : List Byte)

/-- A scroll writes nothing but column 0 of its row to the cursor registers (R173). -/
theorem scrollItems_writes :
    ∀ q ∈ (scrollItems p c row text).flatMap (itemPrims p), q.keepsCursor ∨ q = .setCursor row 0x00#8 := by
  intro q hq
  obtain ⟨it, hit, hq⟩ := List.mem_flatMap.1 hq
  obtain hit | ⟨code, -, rfl⟩ | rfl := scrollItems_mem hit
  · obtain ⟨-, rfl | rfl⟩ := moveCursorItems_mem hit
    · exact .inl (op_keepsCursor _ p q hq)
    · exact .inr (List.mem_singleton.1 hq)
  · exact .inl (op_keepsCursor _ p q hq)
  · exact .inl (delay_keepsCursor _ p q hq)

/-- A scroll has a first window, which moves the cursor when its row is on the display. -/
theorem scrollItems_home (h : onDisplay c row 0x00#8 = true) :
    Prim.setCursor row 0x00#8 ∈ (scrollItems p c row text).flatMap (itemPrims p) := by
  refine List.mem_flatMap.2 ⟨.prim (.setCursor row 0x00#8), ?_, List.mem_singleton.2 rfl⟩
  refine List.mem_flatMap.2 ⟨0, List.mem_range.2 (Nat.succ_pos _), ?_⟩
  simp [moveCursorItems, h]

end

/-- The cursor during and after a scroll: the row stays, and the column stays or becomes 0, which it is at the end when the row
is on the display. -/
theorem runItems_scroll_cursor (c : Configuration) (s : State) (op : Instr) (text : List Byte) :
    let lines := scrollItems s.params c s.curRow text
    let t := runItems c lines (s.accept op lines)
    t.curRow = s.curRow ∧ (t.curCol = s.curCol ∨ t.curCol = 0x00#8)
      ∧ (onDisplay c s.curRow 0x00#8 = true → t.seq = .idle → t.curCol = 0x00#8) := by
  intro lines t
  have hwrites := scrollItems_writes s.params c s.curRow text
  rcases runItems_cursor c lines _ op [] lines (State.accept_seq s op lines) with
    ⟨-, hfold⟩ | ⟨hbusy, finished, b, left, hsplit, hfold⟩
  · obtain ⟨hrow, hcol⟩ := Prod.mk.inj (hfold.trans (foldl_cursor_home hwrites _))
    exact ⟨hrow, hcol ▸ (ite_eq_or_eq _ _ _).symm, fun hon _ => hcol.trans (if_pos (scrollItems_home _ _ _ _ hon))⟩
  · have hfinished := foldl_cursor_home fun q hq => hwrites q (hsplit ▸ List.mem_append_left _ hq)
    obtain ⟨hrow, hcol⟩ := Prod.mk.inj (hfold.trans (hfinished _))
    exact ⟨hrow, hcol ▸ (ite_eq_or_eq _ _ _).symm, fun _ hidle => absurd hidle hbusy⟩

/-- Settles O39, by cases on the accepted operation. -/
theorem cursorWriters : Obligations.CursorWriters := by
  intro s t i c hp hc ht
  dsimp only
  obtain ⟨-, c', s₀, items, ha, rfl⟩ := exec_hostOp_next hp ht
  obtain ⟨rfl, -⟩ := accepted_configured ha hc
  cases ha with
  | construct _ hnone => cases hnone.symm.trans hc
  | init =>
    obtain ⟨lines, heq, hkeeps⟩ := initItems_eq s.params
    rw [heq]
    exact runItems_cursor_last c' s .init 0x00#8 0x00#8 hkeeps
  | printFit _ text _ hl =>
    obtain ⟨hrow, hcol⟩ := runItems_cursor_of_keeps c' (s.setBuffer _) (.print text) (characterItems_keepsCursor _)
    exact ⟨hrow, .inl hcol, fun _ => hcol, fun hlong => absurd hlong (Nat.not_lt.2 hl)⟩
  | printScroll _ text _ hl =>
    obtain ⟨hrow, hcol, hhome⟩ := runItems_scroll_cursor c' s (.print text) text
    refine ⟨hrow, hcol, fun hfit => absurd hl (Nat.not_lt.2 hfit), fun _ hrows hcols => hhome ?_⟩
    exact (onDisplay_iff ..).2 ⟨hrows, hcols⟩
  | moveCursor _ row col =>
    by_cases hon : row.toNat < c'.rows.toNat ∧ col.toNat < c'.cols.toNat
    · simp only [hon, and_true, moveCursorItems_on hon]
      exact runItems_cursor_last c' s _ row col (List.forall_mem_singleton.2 (op_keepsCursor _))
    · simp only [hon, and_false, if_false]
      exact runItems_cursor_of_keeps c' s _ (moveCursorItems_off hon ▸ List.forall_mem_nil _)
  | shiftLeft | shiftRight =>
    exact runItems_cursor_of_keeps c' s _ (List.forall_mem_singleton.2 (op_keepsCursor _))
  | flashLed => exact runItems_cursor_of_keeps c' s .flashLed (flashItems_keepsCursor _)

end Sys2Proof.Machine
end

section
/-! SUPPORT. What the block sends does not depend on `cur_col`, the write buffer or the LED level (O41): every operation on State
commutes with forgetting them. -/

namespace Sys2Proof.Machine

/-- The state without `cur_col`, the write buffer and the LED level. -/
def State.visible (s : State) : State := { s with curCol := 0x00#8, wbuf := [], ledLevel := false }

/-- What is not forgotten. -/
theorem visible_fields {s s' : State} (h : s.visible = s'.visible) :
    s.params = s'.params ∧ s.config = s'.config ∧ s.curRow = s'.curRow ∧ s.seq = s'.seq ∧ s.response = s'.response
      ∧ s.log = s'.log :=
  ⟨(congrArg State.params h :), (congrArg State.config h :), (congrArg State.curRow h :), (congrArg State.seq h :),
    (congrArg State.response h :), (congrArg State.log h :)⟩

/-! ### The position inside an operation -/

theorem visible_setRest {s s' : State} (h : s.visible = s'.visible) (rest : List Item) :
    (s.setRest rest).visible = (s'.setRest rest).visible := by
  have hforget (u : State) : (u.setRest rest).visible = (u.visible.setRest rest).visible := by
    cases u with | mk _ _ _ _ _ seq => cases seq <;> rfl
  rw [hforget, h, ← hforget]

theorem visible_complete {s s' : State} (h : s.visible = s'.visible) : s.complete.visible = s'.complete.visible := by
  have hforget (u : State) : u.complete.visible = u.visible.complete.visible := by
    cases u with | mk _ _ _ _ _ seq => cases seq <;> rfl
  rw [hforget, h, ← hforget]

theorem visible_arriveAt {s s' : State} (h : s.visible = s'.visible) (rest : List Item) :
    (s.arriveAt rest).visible = (s'.arriveAt rest).visible := by
  cases rest with
  | nil => exact visible_complete h
  | cons it its => exact visible_setRest h (it :: its)

theorem visible_accept {s s' : State} (h : s.visible = s'.visible) (op : Instr) (items : List Item) :
    (s.accept op items).visible = (s'.accept op items).visible :=
  congrArg (fun u => (u.accept op items).visible) h

/-! ### Bottom steps and lines -/

section
variable (c : Configuration)

/-- A bottom step finishes or waits whatever is forgotten, and leaves the same in what is not. -/
theorem visible_prim (q : Prim) {s s' : State} (h : s.visible = s'.visible) :
    (prim c q s).map State.visible = (prim c q s').map State.visible := by
  have hforget (u : State) : (prim c q u).map State.visible = (prim c q u.visible).map State.visible := by
    cases q with
    | tx b =>
      cases u with
      | mk _ _ _ _ _ seq _ _ _ _ _ replies =>
        cases replies with
        | nil => cases seq <;> rfl
        | cons r rs => cases r <;> cases seq <;> rfl
    | delay | setPin | setCursor => rfl
  rw [hforget, h, ← hforget]

theorem visible_runPrims (qs : List Prim) {s s' : State} (h : s.visible = s'.visible) :
    (runPrims c qs s).1.visible = (runPrims c qs s').1.visible ∧ (runPrims c qs s).2 = (runPrims c qs s').2 := by
  induction qs generalizing s s' with
  | nil => exact ⟨h, rfl⟩
  | cons q qs ih =>
    have hq := visible_prim c q h
    simp only [runPrims]
    cases hs : prim c q s with
    | none =>
      have hs' : prim c q s' = none := by simpa [hs] using hq.symm
      simp only [hs']
      exact ⟨h, trivial⟩
    | some t =>
      obtain ⟨t', hs', ht⟩ : ∃ t', prim c q s' = some t' ∧ t'.visible = t.visible := by simpa [hs] using hq.symm
      simp only [hs']
      exact ih ht.symm

theorem visible_advance (qs : List Prim) (rest : List Item) {s s' : State} (h : s.visible = s'.visible) :
    (advance c qs rest s).visible = (advance c qs rest s').visible := by
  obtain ⟨hrun, hleft⟩ := visible_runPrims c qs h
  simp only [advance, hleft]
  exact visible_arriveAt hrun _

theorem visible_runItems (items : List Item) {s s' : State} (h : s.visible = s'.visible) :
    (runItems c items s).visible = (runItems c items s').visible := by
  induction items generalizing s s' with
  | nil => exact visible_complete h
  | cons it its ih =>
    obtain ⟨hparams, -⟩ := visible_fields h
    obtain ⟨hrun, hleft⟩ := visible_runPrims c (itemPrims s.params it) h
    simp only [runItems, ← hparams, ← hleft]
    split
    · exact ih hrun
    · exact visible_setRest hrun _

end

/-! ### Instructions -/

/-- An operation is accepted whatever is forgotten, with the same lines before it. -/
theorem accepted_visible {s s' s₀ : State} {i : Instr} {c : Configuration} {items : List Item}
    (ha : Accepted s i c s₀ items) (h : s.visible = s'.visible) :
    ∃ s₀', Accepted s' i c s₀' items ∧ s₀.visible = s₀'.visible := by
  obtain ⟨hparams, hconfig, hrow, -⟩ := visible_fields h
  cases ha with
  | construct args hc hl =>
    rw [hparams] at hl ⊢
    exact ⟨_, .construct args (hconfig ▸ hc) hl, congrArg (fun u => (u.setUp (constructArgs s'.params args)).visible) h⟩
  | init _ hc => exact ⟨s', hparams ▸ .init c (hconfig ▸ hc), h⟩
  | printFit _ text hc hl hm =>
    rw [hparams] at hm ⊢
    exact ⟨_, .printFit c text (hconfig ▸ hc) hl hm, h⟩
  | printScroll _ text hc hl hm =>
    rw [hparams] at hm ⊢
    exact ⟨s', hrow ▸ .printScroll c text (hconfig ▸ hc) hl hm, h⟩
  | moveCursor _ row col hc => exact ⟨s', .moveCursor c row col (hconfig ▸ hc), h⟩
  | shiftLeft _ hc => exact ⟨s', .shiftLeft c (hconfig ▸ hc), h⟩
  | shiftRight _ hc => exact ⟨s', .shiftRight c (hconfig ▸ hc), h⟩
  | flashLed _ hc => exact ⟨s', hparams ▸ .flashLed c (hconfig ▸ hc), h⟩

theorem visible_exec {s s' t : State} {i : Instr} (h : s.visible = s'.visible) (ht : exec i s = .next t) :
    ∃ t', exec i s' = .next t' ∧ t'.visible = t.visible := by
  obtain ⟨hparams, hconfig, -, hseq, -⟩ := visible_fields h
  by_cases hp : i.port = .hostOp
  · obtain ⟨hidle, c, s₀, items, ha, rfl⟩ := exec_hostOp_next hp ht
    obtain ⟨s₀', ha', h₀⟩ := accepted_visible ha h
    refine ⟨_, exec_of_accepted (hseq ▸ hidle) ha', ?_⟩
    exact (visible_runItems c items (visible_accept h₀ i items)).symm
  · rw [exec_inner hp] at ht ⊢
    obtain ⟨op, results, rest, c, hbusy, hc, rfl⟩ := perOperation_next ht
    refine ⟨_, perOperation_runningAs ⟨hseq ▸ hbusy, hconfig ▸ hc⟩ i, ?_⟩
    exact hparams ▸ (visible_advance c (prims s.params i) rest h).symm

/-- Settles O41: the two blocks are the same in what is not forgotten, before and after. -/
theorem hiddenStateIsNeverSent : Obligations.HiddenStateIsNeverSent := by
  intro s t i col buffer level ht
  have hsame : s.visible = State.visible { s with curCol := col, wbuf := buffer, ledLevel := level } := rfl
  obtain ⟨t', ht', h⟩ := visible_exec hsame ht
  obtain ⟨-, -, hrow, hseq, hresponse, hlog⟩ := visible_fields h
  exact ⟨t', ht', hlog, hseq, hresponse, hrow⟩

end Sys2Proof.Machine
end

section
/-! SUPPORT. Running an operation at once and running it line by line end in the same state (O48). -/

namespace Sys2Proof.Machine

/-! ### The step, run repeatedly -/

theorem run_one {s t : State} (h : step s = .next t) : Host.Core.run Sys2Proof.core 1 s = .next t := by
  have hcore : Sys2Proof.core.step s = .next t := h
  simp only [Host.Core.run, hcore]

theorem run_succ {s t : State} (h : step s = .next t) (n : Nat) :
    Host.Core.run Sys2Proof.core (n + 1) s = Host.Core.run Sys2Proof.core n t := by
  have hcore : Sys2Proof.core.step s = .next t := h
  simp only [Host.Core.run, hcore]

/-! ### One line -/

/-- A line of pseudocode: a logical or transmitted byte, or a bottom step, and no host operation (R31). -/
def Item.inner : Item → Prop
  | .op i => i.port ≠ .hostOp
  | .prim _ => True

/-- Arriving at a position does not depend on the position before. -/
theorem arriveAt_setRest (s : State) (a rest : List Item) : (s.setRest a).arriveAt rest = s.arriveAt rest := by
  cases rest with
  | nil => exact complete_setRest s a
  | cons it its => exact setRest_setRest s a _

theorem advance_setRest (c : Configuration) (qs : List Prim) (a rest : List Item) (s : State) :
    advance c qs rest (s.setRest a) = advance c qs rest s := by
  simp only [advance, runPrims_setRest, arriveAt_setRest]

/-- A step of an operation in progress runs the bottom steps of its next line (R30). -/
theorem step_line {s : State} {c : Configuration} {op : Instr} {results : List TxResult} {it : Item} {rest : List Item}
    (hr : s.request = none) (h : s.runningAs c op results (it :: rest)) (hit : it.inner) :
    step s = .next (advance c (itemPrims s.params it) rest s) := by
  obtain ⟨hs, hc⟩ := h
  cases it with
  | op i =>
    have hrest := State.setRest_seq_busy s op results (.op i :: rest) rest hs
    have hrunning : (s.setRest rest).runningAs c op results rest := ⟨hrest, (State.setRest_config ..).trans hc⟩
    rw [step_op hr hs, exec_inner hit, perOperation_runningAs hrunning, advance_setRest, State.setRest_params]
    rfl
  | prim q => exact step_prim hr hs hc

/-! ### All lines -/

/-- The lines of an operation in progress, run one by one by the step, lead where they lead when run at once. -/
theorem run_eq_runItems {c : Configuration} {op : Instr} {items : List Item} (hitems : ∀ it ∈ items, it.inner)
    {s : State} {results : List TxResult} (hr : s.request = none) (h : s.runningAs c op results items) :
    ∃ n, Host.Core.run Sys2Proof.core n s = .next (runItems c items s) := by
  induction items generalizing s results with
  | nil =>
    obtain ⟨hs, -⟩ := h
    exact ⟨1, run_one (step_done hr hs)⟩
  | cons it its ih =>
    obtain ⟨hit, hits⟩ := List.forall_mem_cons.1 hitems
    have hstep := step_line hr h hit
    simp only [runItems]
    cases hleft : (runPrims c (itemPrims s.params it) s).2 with
    | cons q qs => exact ⟨1, run_one (by simpa [advance, hleft, State.arriveAt] using hstep)⟩
    | nil =>
      simp only [advance, hleft, List.map_nil, List.nil_append] at hstep
      cases its with
      | nil => exact ⟨1, run_one hstep⟩
      | cons it' its =>
        obtain ⟨hs, hc⟩ := h
        obtain ⟨-, hconfig, -, -, hrequest, -⟩ := runPrims_frame c (itemPrims s.params it) s
        obtain ⟨more, hseq⟩ := runPrims_seq c (itemPrims s.params it) s op results _ hs
        obtain ⟨n, hn⟩ := ih hits (s := (runPrims c (itemPrims s.params it) s).1.setRest (it' :: its))
          ((State.setRest_request ..).trans (hrequest.trans hr))
          ⟨State.setRest_seq_busy _ _ _ _ _ hseq, (State.setRest_config ..).trans (hconfig.trans hc)⟩
        rw [runItems_setRest] at hn
        exact ⟨n + 1, (run_succ hstep n).trans hn⟩

/-! ### The lines of the operations -/

theorem accepted_linesOf {s s₀ : State} {i : Instr} {c : Configuration} {items : List Item}
    (ha : Accepted s i c s₀ items) : items = linesOf s.params c s.curRow i := by
  cases ha with
  | printFit _ text _ hl => exact (if_pos hl).symm
  | printScroll _ text _ hl => exact (if_neg (Nat.not_le.2 hl)).symm
  | construct | init | moveCursor | shiftLeft | shiftRight | flashLed => rfl

theorem accepted_inner {s s₀ : State} {i : Instr} {c : Configuration} {items : List Item}
    (ha : Accepted s i c s₀ items) : ∀ it ∈ items, it.inner := by
  have move (row col : Byte) : ∀ it ∈ moveCursorItems c row col, it.inner := by
    intro it hit
    obtain ⟨-, rfl | rfl⟩ := moveCursorItems_mem hit
    · exact nofun
    · trivial
  cases ha with
  | construct | init => simp [initItems, Item.inner, Instr.port]
  | printFit =>
    intro it hit
    obtain ⟨code, -, rfl⟩ := characterItems_mem hit
    exact nofun
  | printScroll =>
    intro it hit
    obtain hit | ⟨code, -, rfl⟩ | rfl := scrollItems_mem hit
    · exact move _ _ it hit
    · exact nofun
    · trivial
  | moveCursor => exact move _ _
  | shiftLeft | shiftRight => exact List.forall_mem_singleton.2 nofun
  | flashLed =>
    intro it hit
    obtain rfl | ⟨level, rfl⟩ := flashItems_mem hit <;> trivial

/-- What acceptance leaves as it was: the set-up calls of CONSTRUCT are no events (R13), and no cursor register, parameter or
reply is touched. -/
theorem accepted_frame {s s₀ : State} {i : Instr} {c : Configuration} {items : List Item}
    (ha : Accepted s i c s₀ items) :
    s₀.curRow = s.curRow ∧ s₀.curCol = s.curCol ∧ s₀.replies = s.replies ∧ s₀.trace = s.trace := by
  cases ha with
  | construct args => exact ⟨rfl, rfl, rfl, by simp [State.trace, Call.event]⟩
  | init | printFit | printScroll | moveCursor | shiftLeft | shiftRight | flashLed => exact ⟨rfl, rfl, rfl, rfl⟩

/-- Settles O48: the state acceptance leaves runs its lines one by one. -/
theorem stepsRunTheWholeOperation : Obligations.StepsRunTheWholeOperation := by
  intro s t i hp ht
  obtain ⟨-, c, s₀, items, ha, rfl⟩ := exec_hostOp_next hp ht
  have hconfig := accepted_config ha
  obtain ⟨hrow, hcol, hreplies, htrace⟩ := accepted_frame ha
  obtain ⟨n, hn⟩ := run_eq_runItems (accepted_inner ha) (State.accept_request ..)
    ⟨State.accept_seq s₀ i items, (State.accept_config ..).trans hconfig⟩
  obtain ⟨-, hfinal, -⟩ := runItems_frame c items (s₀.accept i items)
  refine ⟨c, s₀.accept i items, n, hfinal.trans hconfig, fun c' hc' => ((accepted_configured ha hc').1).symm, ?_, rfl, rfl,
    (State.accept_params ..).trans (accepted_params ha), hconfig, hrow, hcol, hreplies, htrace, hn⟩
  exact congrArg (Seq.busy i []) (accepted_linesOf ha)

end Sys2Proof.Machine
end

section
/-! SUPPORT. A write that never returns holds the block for good (O7, O8), and no step touches a call already made (O43). -/

namespace Sys2Proof.Machine

/-! ### Waiting in a write -/

theorem setRest_self {s : State} {op : Instr} {results : List TxResult} {rest : List Item}
    (hs : s.seq = .busy op results rest) : s.setRest rest = s := by
  cases s
  simp_all [State.setRest]

theorem nextReply_of_never {s : State} {replies : List Reply} (h : s.replies = .never :: replies) :
    s.nextReply = .never := by
  simp only [State.nextReply, h]

/-- Bottom steps that begin with a write that does not return are all left, and nothing has happened (R57). -/
theorem runPrims_waits {s : State} (h : s.nextReply = .never) (c : Configuration) (b : Byte) (qs : List Prim) :
    runPrims c (.tx b :: qs) s = (s, .tx b :: qs) := by
  simp only [runPrims, prim, tx, h]

/-- The block stands before a write that does not return, with no request waiting. -/
structure State.waiting (s : State) : Prop where
  request : s.request = none
  reply : s.nextReply = .never
  position : ∃ c op results b rest, s.runningAs c op results (.prim (.tx b) :: rest)

/-- A waiting block steps to itself (R57). -/
theorem step_waiting {s : State} (h : s.waiting) : step s = .next s := by
  obtain ⟨hrequest, hreply, c, op, results, b, rest, hs, hc⟩ := h
  have hstay : advance c [.tx b] rest s = s := by
    simp only [advance, runPrims_waits hreply]
    exact setRest_self hs
  exact (step_prim hrequest hs hc).trans (congrArg _ hstay)

/-- A state that steps to itself is never left. -/
theorem run_of_step_self {s : State} (h : step s = .next s) (n : Nat) : Host.Core.run Sys2Proof.core n s = .next s := by
  induction n with
  | zero => rfl
  | succ n ih => exact (run_succ h n).trans ih

/-- Settles O7: the block waits, so every step leaves it as it is. -/
theorem transportThatNeverReturns : Obligations.TransportThatNeverReturns := by
  intro s c op results b rest replies hrunning hrequest hreplies
  exact run_of_step_self (step_waiting ⟨hrequest, nextReply_of_never hreplies, c, op, results, b, rest, hrunning⟩)

/-! ### Lines that are left unfinished -/

/-- Lines run for an operation either complete it or stand before a write that does not return, with nothing answered. -/
theorem runItems_unfinished {c : Configuration} {items : List Item} {s : State} {op : Instr} {results : List TxResult}
    {rest : List Item} (hs : s.seq = .busy op results rest) (hbusy : (runItems c items s).seq ≠ .idle) :
    (runItems c items s).nextReply = .never ∧ (runItems c items s).response = s.response
      ∧ ∃ results' b rest', (runItems c items s).seq = .busy op results' (.prim (.tx b) :: rest') := by
  induction items generalizing s results rest with
  | nil => exact absurd (State.complete_seq s) hbusy
  | cons it its ih =>
    obtain ⟨more, hseq⟩ := runPrims_seq c (itemPrims s.params it) s op results rest hs
    obtain ⟨-, -, -, -, -, hresponse, -⟩ := runPrims_frame c (itemPrims s.params it) s
    simp only [runItems] at hbusy ⊢
    cases hleft : (runPrims c (itemPrims s.params it) s).2 with
    | nil =>
      simp only [hleft] at hbusy ⊢
      exact hresponse ▸ ih hseq hbusy
    | cons q qs =>
      obtain ⟨hreply, b, rfl⟩ := runPrims_left c _ s q qs hleft
      exact ⟨(nextReply_setRest ..).trans hreply, (State.setRest_response ..).trans hresponse, _, b, _,
        State.setRest_seq_busy _ _ _ _ _ hseq⟩

/-- Lines whose first write does not return: nothing has happened but that its bottom steps are written out. -/
theorem runItems_waits {c : Configuration} {it : Item} {its : List Item} {s : State} {b : Byte} {qs : List Prim}
    (hit : itemPrims s.params it = .tx b :: qs) (h : s.nextReply = .never) :
    runItems c (it :: its) s = s.setRest ((Prim.tx b :: qs).map Item.prim ++ its) := by
  simp only [runItems, hit, runPrims_waits h]

/-! ### The calls already made -/

theorem accepted_log {s s₀ : State} {i : Instr} {c : Configuration} {items : List Item}
    (ha : Accepted s i c s₀ items) : s.log <+: s₀.log := by
  cases ha with
  | construct => exact List.prefix_append _ _
  | init | printFit | printScroll | moveCursor | shiftLeft | shiftRight | flashLed => exact List.prefix_refl _

theorem exec_log {s t : State} {i : Instr} (h : exec i s = .next t) : s.log <+: t.log := by
  by_cases hp : i.port = .hostOp
  · obtain ⟨-, c, s₀, items, ha, rfl⟩ := exec_hostOp_next hp h
    obtain ⟨-, -, -, -, -, hlog⟩ := runItems_frame c items (s₀.accept i items)
    exact (accepted_log ha).trans hlog
  · rw [exec_inner hp] at h
    obtain ⟨op, results, rest, c, -, -, rfl⟩ := perOperation_next h
    obtain ⟨-, -, -, -, -, hlog⟩ := advance_frame c (prims s.params i) rest s
    exact hlog

/-- Settles O43, by cases on what a step can do. -/
theorem logOnlyGrows : Obligations.LogOnlyGrows := by
  intro s t ht
  cases step_next ht with
  | request bytes i _ _ hexec => exact exec_log hexec
  | wait _ _ hsame => exact hsame ▸ List.prefix_refl _
  | done op results _ _ hdone => simp [hdone]
  | line op i results rest _ _ hexec => exact State.setRest_log s rest ▸ exec_log hexec
  | prim op q results rest c _ _ _ hadvance =>
    obtain ⟨-, -, -, -, -, hlog⟩ := advance_frame c [q] rest s
    exact hadvance ▸ hlog

/-! ### Operations that are left unfinished -/

/-- A host operation that is left unfinished has answered nothing and waits in a write. -/
theorem exec_unfinished {s t : State} {i : Instr} (hp : i.port = .hostOp) (ht : exec i s = .next t)
    (hbusy : t.seq ≠ .idle) : t.response = none ∧ t.waiting := by
  obtain ⟨-, c, s₀, items, ha, rfl⟩ := exec_hostOp_next hp ht
  obtain ⟨hreply, hresponse, results, b, rest, hseq⟩ := runItems_unfinished (State.accept_seq s₀ i items) hbusy
  obtain ⟨-, hconfig, -, -, hrequest, -⟩ := runItems_frame c items (s₀.accept i items)
  exact ⟨hresponse, hrequest, hreply, c, i, results, b, rest, hseq,
    (hconfig.trans (State.accept_config ..)).trans (accepted_config ha)⟩

/-- A shift whose first write does not return is accepted and has done nothing else (R200, R57). -/
theorem exec_shiftLeft_waits {s : State} {c : Configuration} (h : s.readyAs c) (hreply : s.nextReply = .never) :
    exec .shiftLeft s = .next (s.accept .shiftLeft ((prims s.params .cmdShiftLeft).map Item.prim)) := by
  obtain ⟨hs, hc⟩ := h
  refine (exec_of_accepted hs (.shiftLeft c hc)).trans (congrArg Host.Outcome.next ?_)
  exact (runItems_waits (s := s.accept .shiftLeft [.op .cmdShiftLeft]) rfl hreply).trans
    (congrArg _ (List.append_nil _))

/-- Settles O8: what is left unfinished waits, and the witness is a shift whose first write does not return. -/
theorem operationThatNeverReturns : Obligations.OperationThatNeverReturns := by
  refine ⟨fun s t i hp ht hbusy => ?_, fun s c replies h hreplies => ?_⟩
  · obtain ⟨hresponse, hwaiting⟩ := exec_unfinished hp ht hbusy
    exact ⟨hwaiting.reply, hresponse, exec_log ht, run_of_step_self (step_waiting hwaiting)⟩
  · exact ⟨_, exec_shiftLeft_waits h (nextReply_of_never hreplies), rfl, nofun, rfl⟩

end Sys2Proof.Machine
end

section
/-! SUPPORT. The DDRAM address of a pair on a legal display (O31). -/

namespace Sys2Proof.Machine

/-- A base and a column whose sum fits 7 bits are added without a wrap (R62). -/
theorem ddramAddress_toNat {base : RowBases} {row col : Byte} (h : (baseOf base row.toNat).toNat + col.toNat ≤ 0x7F) :
    (ddramAddress base row col).toNat = (baseOf base row.toNat).toNat + col.toNat := by
  have hcol : col.toNat % 2 ^ 7 = col.toNat := Nat.mod_eq_of_lt (by omega)
  rw [ddramAddress, BitVec.toNat_add, BitVec.toNat_setWidth, hcol]
  exact Nat.mod_eq_of_lt (by omega)

/-- Settles O31: a legal geometry leaves room for every column of every row (R9). -/
theorem addressNeverWraps : Obligations.AddressNeverWraps := by
  intro base rows cols address row col hlegal hrow hcol
  obtain ⟨-, hrows, -, hfits, -⟩ := (geometryLegal_iff ..).1 hlegal
  have hsum : (baseOf base row.toNat).toNat + col.toNat ≤ 0x7F := by
    have := hfits row.toNat hrow
    omega
  rw [ddramAddress_toNat hsum, bases_getD base (Nat.lt_of_lt_of_le hrow hrows)]
  exact ⟨rfl, hsum⟩

end Sys2Proof.Machine
end

section
/-! SUPPORT. What a receiver reads from the events of bytes, of the printed line (O49) and of INIT (O50); the receiver is the
checking aid of R60 and no part of the block. -/

namespace Sys2Proof.Machine

/-! ### The bits of a transmitted byte -/

/-- Control lines leave the data bits alone. -/
theorem extractLsb'_data_or {x : Byte} (hx : x &&& 0x0F#8 = x) (d : Byte) :
    (d ||| x).extractLsb' 4 4 = d.extractLsb' 4 4 := by
  have hlines : x.extractLsb' 4 4 = 0x0#4 := by
    rw [← hx, BitVec.extractLsb'_and]
    exact BitVec.and_zero
  rw [BitVec.extractLsb'_or, hlines, BitVec.or_zero]

/-- Data in bits 7:4 touches no control line. -/
theorem data_and_line {d x : Byte} (hd : d &&& 0x0F#8 = 0x00#8) (hx : x &&& 0x0F#8 = x) : d &&& x = 0x00#8 := by
  rw [← hx, BitVec.and_comm x, ← BitVec.and_assoc, hd, BitVec.zero_and]

/-- A line that is set in a byte is seen there. -/
theorem or_or_and_self (a b c : Byte) : (a ||| b ||| c) &&& b = b := by
  ext i
  grind

section
variable {p : Params} (h : controlBitsLegal p = true) {d : Byte}
include h

/-- Enable is set in a high-phase byte (R140). -/
theorem highPhase_enable (rs : Byte) : (d ||| p.blBit ||| p.enBit ||| rs) &&& p.enBit ≠ 0x00#8 := by
  rw [or_or_and_self]
  exact isControlBit_ne_zero ((controlBitsLegal_iff p).1 h).en_bit

variable (hd : d &&& 0x0F#8 = 0x00#8)
include hd

/-- Enable is clear in a low-phase byte (R142). -/
theorem lowPhase_enable : (d ||| p.blBit) &&& p.enBit = 0x00#8 := by
  have lines := (controlBitsLegal_iff p).1 h
  rw [BitVec.and_or_distrib_right, data_and_line hd (isControlBit_and_low _ lines.en_bit), BitVec.zero_or,
    isControlBit_disjoint lines.bl_bit lines.en_bit lines.en_ne_bl.symm]

/-- Register-select is set in the high-phase bytes of mode Character and in no other (R84, R140). -/
theorem highPhase_registerSelect (mode : Mode) :
    (d ||| p.blBit ||| p.enBit ||| rsFlag p mode) &&& p.rsBit ≠ 0x00#8 ↔ mode = .character := by
  have lines := (controlBitsLegal_iff p).1 h
  cases mode with
  | command =>
    have hclear : (d ||| p.blBit ||| p.enBit ||| 0x00#8) &&& p.rsBit = 0x00#8 := by
      rw [BitVec.or_zero, BitVec.and_or_distrib_right, BitVec.and_or_distrib_right,
        data_and_line hd (isControlBit_and_low _ lines.rs_bit),
        isControlBit_disjoint lines.bl_bit lines.rs_bit lines.rs_ne_bl.symm,
        isControlBit_disjoint lines.en_bit lines.rs_bit lines.rs_ne_en.symm]
      rfl
    simp only [rsFlag, hclear, ne_eq, not_true_eq_false, reduceCtorEq]
  | character =>
    have hset := or_or_and_self (d ||| p.blBit ||| p.enBit) p.rsBit 0x00#8
    rw [BitVec.or_zero] at hset
    simp only [rsFlag, hset, iff_true]
    exact isControlBit_ne_zero lines.rs_bit

end

/-! ### Enable pulses -/

section
variable {p : Params}

/-- A byte with enable clear latches nothing. -/
theorem latched_of_enable_clear {b : Byte} (hb : b &&& p.enBit = 0x00#8) (rest : List Byte) :
    latched p (b :: rest) = latched p rest := by
  cases rest with
  | nil => rfl
  | cons a rest => simp only [latched, hb, ne_eq, not_true_eq_false, false_and, if_false]

/-- The two bytes of an enable pulse latch one nibble (R152). -/
theorem latched_pulse (h : controlBitsLegal p = true) {d : Byte} (hd : d &&& 0x0F#8 = 0x00#8) (mode : Mode)
    (rest : List Byte) :
    latched p ((d ||| p.blBit ||| p.enBit ||| rsFlag p mode) :: (d ||| p.blBit) :: rest) =
      (d.extractLsb' 4 4, decide (mode = .character)) :: latched p rest := by
  have hdata : (d ||| p.blBit ||| p.enBit ||| rsFlag p mode).extractLsb' 4 4 = d.extractLsb' 4 4 := by
    simpa only [BitVec.or_assoc] using extractLsb'_data_or (highLines_and_low h mode) d
  rw [latched, if_pos ⟨highPhase_enable h _, lowPhase_enable h hd⟩, latched_of_enable_clear (lowPhase_enable h hd),
    hdata, decide_eq_decide.2 (highPhase_registerSelect h hd mode)]

end

/-! ### Events -/

theorem extractLsb'_high (v : Byte) : (v &&& 0xF0#8).extractLsb' 4 4 = v.extractLsb' 4 4 := by
  revert v; decide

theorem extractLsb'_high_shifted (v : Byte) : ((v <<< 4) &&& 0xF0#8).extractLsb' 4 4 = v.extractLsb' 0 4 := by
  revert v; decide

theorem nibbles_append (v : Byte) : v.extractLsb' 4 4 ++ v.extractLsb' 0 4 = v := by
  revert v; decide

section
variable (p : Params)

@[simp] theorem received_nil : received p [] = [] := rfl

@[simp] theorem received_delay (t : Nat) (events : List Event) :
    received p (.delay t :: events) = received p events := rfl

end

section
variable {p : Params} (h : controlBitsLegal p = true)
include h

/-- The backlight-only byte yields nothing (R128). -/
theorem received_blBit (events : List Event) : received p (.tx p.blBit :: events) = received p events := by
  have lines := (controlBitsLegal_iff p).1 h
  exact congrArg paired (latched_of_enable_clear
    (isControlBit_disjoint lines.bl_bit lines.en_bit lines.en_ne_bl.symm) (txBytes events))

/-- A framed byte is read as itself, with register-select set in mode Character (R156). -/
theorem received_sendByteEvents (v : Byte) (mode : Mode) (events : List Event) :
    received p (sendByteEvents p v mode ++ events) = (v, decide (mode = .character)) :: received p events := by
  have hbytes : txBytes (sendByteEvents p v mode ++ events) =
      ((v &&& 0xF0#8) ||| p.blBit ||| p.enBit ||| rsFlag p mode) :: ((v &&& 0xF0#8) ||| p.blBit)
        :: (((v <<< 4) &&& 0xF0#8) ||| p.blBit ||| p.enBit ||| rsFlag p mode)
        :: (((v <<< 4) &&& 0xF0#8) ||| p.blBit) :: txBytes events := by
    cases mode <;> rfl
  rw [received, hbytes, latched_pulse h (high_and_low v), latched_pulse h (high_and_low (v <<< 4)), paired,
    extractLsb'_high, extractLsb'_high_shifted, nibbles_append]
  rfl

/-- Two bytes sent as their low nibbles alone are read as one (R124). -/
theorem received_singleNibbleEvents (v w : Byte) (t : Nat) (events : List Event) :
    received p (singleNibbleEvents p v ++ .delay t :: (singleNibbleEvents p w ++ events)) =
      (v.extractLsb' 0 4 ++ w.extractLsb' 0 4, false) :: received p events := by
  have hpulse (u : Byte) (rest : List Byte) := latched_pulse h (high_and_low (u <<< 4)) .command rest
  simp only [rsFlag, BitVec.or_zero, extractLsb'_high_shifted] at hpulse
  have hbytes (u : Byte) (es : List Event) : txBytes (singleNibbleEvents p u ++ es) =
      (((u <<< 4) &&& 0xF0#8) ||| p.blBit ||| p.enBit) :: (((u <<< 4) &&& 0xF0#8) ||| p.blBit) :: txBytes es := rfl
  have hdelay : txBytes (.delay t :: (singleNibbleEvents p w ++ events)) = txBytes (singleNibbleEvents p w ++ events) :=
    rfl
  rw [received, hbytes, hdelay, hbytes, hpulse, hpulse, paired]
  rfl

/-! ### The printed line -/

theorem primEvents_characterItems (codes : List Byte) :
    primEvents ((characterItems codes).flatMap (itemPrims p)) = characterEvents p codes := by
  induction codes with
  | nil => rfl
  | cons code codes ih =>
    calc primEvents ((characterItems (code :: codes)).flatMap (itemPrims p))
        = primEvents (sendByte p code .character) ++ primEvents ((characterItems codes).flatMap (itemPrims p)) :=
          primEvents_append _ _
      _ = characterEvents p (code :: codes) := by rw [primEvents_sendByte h, ih]; rfl

theorem received_characterEvents (codes : List Byte) :
    received p (characterEvents p codes) = codes.map (fun code => (code, true)) := by
  induction codes with
  | nil => rfl
  | cons code codes ih =>
    calc received p (characterEvents p (code :: codes))
        = (code, true) :: received p (characterEvents p codes) := received_sendByteEvents h code .character _
      _ = (code :: codes).map (fun code => (code, true)) := by rw [ih]; rfl

end

theorem trace_afterOperation (s : State) (c : Configuration) (events : List Event) :
    (s.afterOperation c events).trace = s.trace ++ events :=
  trace_afterEvents s c events

/-- Settles O49: a PRINT that fits makes the events of its line, which are read back code by code. -/
theorem receiverReadsThePrintedLine : Obligations.ReceiverReadsThePrintedLine := by
  intro s t c text ⟨hs, hc⟩ hr hbits hfits hm ht
  have hline := perform_returns c (.print text) (characterItems (padded s.params c.cols text))
    (s.setBuffer (padded s.params c.cols text)) hr
  rw [exec_of_accepted hs (.printFit c text hc hfits hm), hline] at ht
  cases ht
  refine ⟨characterEvents s.params (padded s.params c.cols text), ?_, received_characterEvents hbits _⟩
  rw [← primEvents_characterItems hbits]
  exact trace_afterOperation (s.setBuffer _) c _

/-! ### INIT -/

section
variable {p : Params} (h : controlBitsLegal p = true)
include h

/-- With the switch off, INIT is read as its nine logical bytes (R131). -/
theorem received_initEvents_bytes (hswitch : p.initSingleNibble = false) :
    received p (initEvents p) =
      ([p.resetByte, p.resetByte, p.resetByte, p.mode4Byte]
        ++ [p.functionSet, p.entryMode, p.clear, p.home, p.displayOn]).map (fun v => (v, false)) := by
  have hlast := received_sendByteEvents h p.displayOn .command []
  rw [List.append_nil] at hlast
  simp [initEvents, resetPhaseEvents, hswitch, received_sendByteEvents h, received_blBit h, hlast]

/-- With the switch on, the four reset-phase bytes are read as their low nibbles, two to a byte (R124, R133). -/
theorem received_initEvents_nibbles (hswitch : p.initSingleNibble = true) :
    received p (initEvents p) =
      ([p.resetByte.extractLsb' 0 4 ++ p.resetByte.extractLsb' 0 4,
          p.resetByte.extractLsb' 0 4 ++ p.mode4Byte.extractLsb' 0 4]
        ++ [p.functionSet, p.entryMode, p.clear, p.home, p.displayOn]).map (fun v => (v, false)) := by
  have hlast := received_sendByteEvents h p.displayOn .command []
  rw [List.append_nil] at hlast
  simp [initEvents, resetPhaseEvents, hswitch, received_singleNibbleEvents h, received_sendByteEvents h,
    received_blBit h, hlast]

end

/-- Settles O50, by cases on the switch. -/
theorem receiverReadsTheInitSequence : Obligations.ReceiverReadsTheInitSequence := by
  intro s t c hready hr hbits ht
  rw [initRunsTheWholeSequence s c hready hr hbits] at ht
  cases ht
  refine ⟨initEvents s.params, trace_afterOperation s c _, ?_⟩
  cases hswitch : s.params.initSingleNibble with
  | false => exact received_initEvents_bytes hbits hswitch
  | true => exact received_initEvents_nibbles hbits hswitch

end Sys2Proof.Machine
end

section
/-! SUPPORT. What the decoder accepts is an encoding (O2), and words of the opcode table (O3). -/

namespace Sys2Proof

/-- `bytes` is the encoding, at its own place, of the well-formed instruction `i`. -/
structure EncodedAs (p : Params) (port : Port) (bytes : List Byte) (i : Instr) : Prop where
  port_eq : i.port = port
  wellFormed : WellFormed i
  encode_eq : encode p i = bytes

/-- A decoder's answer to `bytes` that is an error or an instruction they encode. -/
def ReadsOnlyEncodings (p : Params) (port : Port) (bytes : List Byte) (answer : Decoded) : Prop :=
  ∀ i, answer = .ok i → EncodedAs p port bytes i

/-! ### The answers a decoder is made of -/

section
variable {p : Params} {port : Port} {bytes : List Byte}

theorem readsOnly_ok {i : Instr} (h : EncodedAs p port bytes i) : ReadsOnlyEncodings p port bytes (.ok i) := by
  intro j hj
  obtain rfl := Except.ok.inj hj
  exact h

theorem readsOnly_error (e : DecodeError) : ReadsOnlyEncodings p port bytes (.error e) := nofun

/-- A decoder that tests the first byte. -/
theorem readsOnly_ite {b w : Byte} [Decidable (b = w)] {answer other : Decoded}
    (hword : ReadsOnlyEncodings p port (w :: bytes) answer) (hother : ReadsOnlyEncodings p port (b :: bytes) other) :
    ReadsOnlyEncodings p port (b :: bytes) (if b = w then answer else other) := by
  split
  · rename_i hb
    exact hb ▸ hword
  · exact hother

theorem readsOnly_oneByte {f : Byte → Decoded} {b : Byte} (h : ReadsOnlyEncodings p port [b] (f b)) :
    ReadsOnlyEncodings p port (b :: bytes) (decodeOneByte f b bytes) := by
  cases bytes with
  | nil => exact h
  | cons => exact readsOnly_error _

end

/-! ### Host requests -/

section
variable {p : Params}

theorem decodeBare_readsOnly {w : Byte} {i : Instr} (h : EncodedAs p .hostOp [w] i) (ops : List Byte) :
    ReadsOnlyEncodings p .hostOp (w :: ops) (decodeBare i ops) := by
  cases ops with
  | nil => exact readsOnly_ok h
  | cons => exact readsOnly_error _

theorem decodeConstruct_readsOnly (ops : List Byte) :
    ReadsOnlyEncodings p .hostOp (0x00#8 :: ops) (decodeConstruct ops) := by
  unfold decodeConstruct
  split
  · exact readsOnly_error _
  · rename_i form rest
    split
    · rename_i hform
      subst hform
      cases rest with
      | nil => exact readsOnly_ok ⟨rfl, rfl, rfl⟩
      | cons => exact readsOnly_error _
    · split
      · rename_i hform
        subst hform
        split
        · exact readsOnly_ok ⟨rfl, rfl, rfl⟩
        · exact readsOnly_error _
        · exact readsOnly_error _
      · exact readsOnly_error _

/-- The two length bytes of a text are the ones the encoder writes: the converse of `length_of_bytes`. -/
theorem bytes_of_length {n : Nat} {lo hi : Byte} (h : n = lo.toNat + 256 * hi.toNat) :
    BitVec.ofNat 8 n = lo ∧ BitVec.ofNat 8 (n / 256) = hi := by
  constructor <;> bv_omega

theorem decodePrint_readsOnly (ops : List Byte) :
    ReadsOnlyEncodings p .hostOp (0x02#8 :: ops) (decodePrint ops) := by
  unfold decodePrint
  split
  · rename_i lo hi text
    split
    · exact readsOnly_error _
    · split
      · exact readsOnly_error _
      · have hlen : text.length = lo.toNat + 256 * hi.toNat := by omega
        have hwf : text.length ≤ Instr.maxTextLength := by
          rw [Instr.maxTextLength]
          omega
        obtain ⟨hlo, hhi⟩ := bytes_of_length hlen
        exact readsOnly_ok ⟨rfl, decide_eq_true hwf, by rw [encode, hlo, hhi]⟩
  · exact readsOnly_error _

theorem decodeMoveCursor_readsOnly (ops : List Byte) :
    ReadsOnlyEncodings p .hostOp (0x03#8 :: ops) (decodeMoveCursor ops) := by
  unfold decodeMoveCursor
  split
  · exact readsOnly_ok ⟨rfl, rfl, rfl⟩
  · exact readsOnly_error _
  · exact readsOnly_error _

theorem decodeHostOp_readsOnly (sel : Byte) (ops : List Byte) :
    ReadsOnlyEncodings p .hostOp (sel :: ops) (decodeHostOp sel ops) :=
  readsOnly_ite (decodeConstruct_readsOnly ops) <|
  readsOnly_ite (decodeBare_readsOnly ⟨rfl, rfl, rfl⟩ ops) <|
  readsOnly_ite (decodePrint_readsOnly ops) <|
  readsOnly_ite (decodeMoveCursor_readsOnly ops) <|
  readsOnly_ite (decodeBare_readsOnly ⟨rfl, rfl, rfl⟩ ops) <|
  readsOnly_ite (decodeBare_readsOnly ⟨rfl, rfl, rfl⟩ ops) <|
  readsOnly_ite (decodeBare_readsOnly ⟨rfl, rfl, rfl⟩ ops) <|
  readsOnly_ite (decodeBare_readsOnly ⟨rfl, rfl, rfl⟩ ops) <|
  readsOnly_error _

/-! ### Logical and transmitted bytes -/

/-- A decoder of one byte that tests for an instruction's only word. -/
theorem readsOnly_word {port : Port} {b w : Byte} [Decidable (b = w)] {i : Instr} {other : Decoded}
    (h : EncodedAs p port [w] i) (hother : ReadsOnlyEncodings p port [b] other) :
    ReadsOnlyEncodings p port [b] (if b = w then .ok i else other) :=
  readsOnly_ite (readsOnly_ok h) hother

theorem decodeResetPhase_readsOnly (b : Byte) : ReadsOnlyEncodings p .resetPhase [b] (decodeResetPhase p b) :=
  readsOnly_word ⟨rfl, rfl, rfl⟩ <| readsOnly_word ⟨rfl, rfl, rfl⟩ <| readsOnly_error _

theorem decodeCommand_readsOnly (b : Byte) : ReadsOnlyEncodings p .command [b] (decodeCommand p b) := by
  simp only [decodeCommand, isSetDdramWord, decide_eq_true_eq]
  exact
    readsOnly_word ⟨rfl, rfl, rfl⟩ <| readsOnly_word ⟨rfl, rfl, rfl⟩ <| readsOnly_word ⟨rfl, rfl, rfl⟩ <|
    readsOnly_word ⟨rfl, rfl, rfl⟩ <| readsOnly_word ⟨rfl, rfl, rfl⟩ <| readsOnly_word ⟨rfl, rfl, rfl⟩ <|
    readsOnly_word ⟨rfl, rfl, rfl⟩ <| readsOnly_word ⟨rfl, rfl, rfl⟩ <| readsOnly_error _

theorem decodePulse_readsOnly (b : Byte) : ReadsOnlyEncodings p .pulse [b] (decodePulse p b) :=
  readsOnly_word ⟨rfl, rfl, rfl⟩ <| readsOnly_word ⟨rfl, rfl, rfl⟩ <| readsOnly_word ⟨rfl, rfl, rfl⟩ <|
  readsOnly_error _

theorem decodeBareByte_readsOnly (b : Byte) : ReadsOnlyEncodings p .bare [b] (decodeBareByte p b) :=
  readsOnly_word ⟨rfl, rfl, rfl⟩ <| readsOnly_error _

end

theorem decode_readsOnly (p : Params) (port : Port) (bytes : List Byte) :
    ReadsOnlyEncodings p port bytes (decode p port bytes) := by
  cases bytes with
  | nil => exact readsOnly_error _
  | cons b rest =>
    cases port with
    | hostOp => exact decodeHostOp_readsOnly b rest
    | resetPhase => exact readsOnly_oneByte (decodeResetPhase_readsOnly b)
    | command => exact readsOnly_oneByte (decodeCommand_readsOnly b)
    | character => exact readsOnly_oneByte (f := fun code => .ok (.character code)) (readsOnly_ok ⟨rfl, rfl, rfl⟩)
    | pulse => exact readsOnly_oneByte (decodePulse_readsOnly b)
    | bare => exact readsOnly_oneByte (decodeBareByte_readsOnly b)

/-- Settles O2: at every place, each answer of the decoder is an error or an instruction the bytes encode. -/
theorem decodeReadsOnlyEncodings : Obligations.DecodeReadsOnlyEncodings := by
  intro p port bytes i hd
  obtain ⟨hport, hwf, hencode⟩ := decode_readsOnly p port bytes i hd
  exact ⟨hport, hwf, hencode⟩

/-- Settles O3: each place's decoder, evaluated with the values the premises give. -/
theorem tableWordsDecode : Obligations.TableWordsDecode := by
  intro p hrs hen hbl hreset hmode hplain hddram
  simp only [Machine.plainCommands, List.cons.injEq, and_true] at hplain
  obtain ⟨hfunction, hentry, hclear, hhome, hon, hleft, hright⟩ := hplain
  refine ⟨rfl, rfl, ?_, ?_, ?_, ?_, ?_, rfl⟩
  · simp [decode, decodeOneByte, decodeCommand, isSetDdramWord, setDdramWord, *]
  · exact if_pos hfunction.symm
  · simp [decode, decodeOneByte, decodeResetPhase, *]
  · simp [decode, decodeOneByte, decodePulse, busWord, *]
  · exact if_pos hbl.symm

end Sys2Proof
end

section
/-! SUPPORT. Logical and transmitted bytes as instructions: what they send for an operation in progress (O18, O19, O21), and that
they need one (O15); the reserved selector (O11). -/

namespace Sys2Proof.Machine

/-! ### One line when every bus write returns -/

/-- Bottom steps that write neither the cursor registers nor the LED level leave what their events say. -/
theorem afterPrims_arriveAt {qs : List Prim} (hkeeps : ∀ q ∈ qs, q.keepsCursor ∧ q.keepsLevel) (s : State)
    (c : Configuration) (op : Instr) (results : List TxResult) (rest' rest : List Item) :
    (s.afterPrims c op results rest' qs).arriveAt rest = s.afterLine c op results rest (primEvents qs) := by
  have hcursor := foldl_cursor_of_keeps (fun q hq => (hkeeps q hq).1) (s.curRow, s.curCol)
  have hlevel := foldl_level_of_keeps (fun q hq => (hkeeps q hq).2) s.ledLevel
  simp only [State.afterPrims, hcursor, hlevel]
  cases rest <;> rfl

section
variable {s : State} {c : Configuration} {op : Instr} {results : List TxResult} {rest : List Item}
  (h : s.runningAs c op results rest) (hr : s.transportReturns)
include h hr

/-- A logical or transmitted byte makes the events of its bottom steps, and the operation in progress goes on. -/
theorem exec_inner_returns {i : Instr} (hp : i.port ≠ .hostOp) :
    exec i s = .next (s.afterLine c op results rest (primEvents (prims s.params i))) := by
  have ⟨hs, _⟩ := h
  rw [exec_inner hp, perOperation_runningAs h, advance_returns c _ rest s op results rest hs hr,
    afterPrims_arriveAt (prims_keeps s.params i)]

/-- A byte that is framed makes the 8 events of R156. -/
theorem exec_sendByte (hbits : controlBitsLegal s.params = true) {i : Instr} {v : Byte} {mode : Mode}
    (hp : i.port ≠ .hostOp) (hsend : prims s.params i = sendByte s.params v mode) :
    exec i s = .next (s.afterLine c op results rest (sendByteEvents s.params v mode)) := by
  rw [exec_inner_returns h hr hp, hsend, primEvents_sendByte hbits]

end

/-- Settles O18: every command byte is framed in mode Command. -/
theorem commandBytesAreSent : Obligations.CommandBytesAreSent := by
  intro s c op results rest h hr hbits sent
  have send {i : Instr} {v : Byte} (hp : i.port ≠ .hostOp) (hsend : prims s.params i = sendByte s.params v .command) :
      exec i s = sent v := exec_sendByte h hr hbits hp hsend
  exact ⟨send nofun rfl, send nofun rfl, send nofun rfl, send nofun rfl, send nofun rfl, send nofun rfl, send nofun rfl,
    fun _ => send nofun rfl⟩

/-- Settles O19: a character code is framed as it is. -/
theorem characterIsSentVerbatim : Obligations.CharacterIsSentVerbatim := by
  intro s c op results rest code h hr hbits
  exact exec_sendByte h hr hbits nofun rfl

/-! ### Transmitted bytes -/

/-- The data of a transmitted byte is in bits 7:4 (R80). -/
theorem nibble_append (data : Nibble) : (data ++ 0x0#4 : Byte) = data.zeroExtend 8 <<< 4 := by
  revert data; decide

theorem highPhaseByte_eq (p : Params) (data : Nibble) (mode : Mode) :
    highPhaseByte p data mode = (data.zeroExtend 8 <<< 4) ||| p.blBit ||| p.enBit ||| rsFlag p mode := by
  rw [highPhaseByte, nibble_append]

theorem lowPhaseByte_eq {p : Params} (h : controlBitsLegal p = true) (data : Nibble) :
    lowPhaseByte p data = (data.zeroExtend 8 <<< 4) ||| p.blBit := by
  rw [lowPhaseByte, highPhaseByte, lowPhase_data_or h (nibble_and_low data), nibble_append]

/-- Settles O21: each transmitted byte has one bottom step, the transmission of its shape. -/
theorem transmittedBytesAreSent : Obligations.TransmittedBytesAreSent := by
  intro s c op results rest data h hr hbits p sent
  have send {i : Instr} {b b' : Byte} (hp : i.port ≠ .hostOp) (hsend : prims p i = [.tx b]) (hb : b = b') :
      exec i s = sent b' := by
    rw [exec_inner_returns h hr hp, hsend, hb]
    rfl
  refine ⟨send nofun rfl ?_, send nofun rfl (highPhaseByte_eq p data .character),
    send nofun rfl (lowPhaseByte_eq hbits data), send nofun rfl rfl⟩
  exact (highPhaseByte_eq p data .command).trans BitVec.or_zero

/-! ### What is refused -/

theorem perOperation_idle {s : State} (hs : s.seq = .idle) (i : Instr) :
    perOperation i s = .refused .noOperationInProgress := by
  simp only [perOperation, hs]

/-- Settles O15: logical and transmitted bytes run as `perOperation`, which asks for an operation in progress. -/
theorem innerBytesNeedAnOperation : Obligations.InnerBytesNeedAnOperation := by
  intro s i hp hs
  rw [exec_inner hp, perOperation_idle hs]

/-- Settles O11: the one byte 0x07 is selector 7, whose meaning is the refusal in every state. -/
theorem reservedSelectorIsRefused : Obligations.ReservedSelectorIsRefused :=
  ⟨fun _ => rfl, fun _ => rfl⟩

end Sys2Proof.Machine
end

section
/-! SUPPORT. The bytes that are never sent (O47): a transmission in the trace has a legal shape, and no legal shape is one of the
forbidden ones. -/

namespace Sys2Proof.Machine

/-! ### The control lines of a legal shape -/

/-- A control line is seen in the low four bits. -/
theorem and_line_of_low {b low x : Byte} (hb : b &&& 0x0F#8 = low) (hx : x &&& 0x0F#8 = x) : b &&& x = low &&& x := by
  rw [← hb, BitVec.and_assoc, BitVec.and_comm 0x0F#8, hx]

section
variable {p : Params} (h : controlBitsLegal p = true) {b : Byte} (hb : busShape p b)
include h hb

/-- Read/write is clear in every legal shape (R85, R87). -/
theorem busShape_readWrite : b &&& p.rwBit = 0x00#8 := by
  have lines := (controlBitsLegal_iff p).1 h
  have hbl := isControlBit_disjoint lines.bl_bit lines.rw_bit lines.rw_ne_bl.symm
  have hen := isControlBit_disjoint lines.en_bit lines.rw_bit lines.rw_ne_en.symm
  have hrs := isControlBit_disjoint lines.rs_bit lines.rw_bit lines.rs_ne_rw
  rcases hb with hb | hb | hb <;> rw [and_line_of_low hb (isControlBit_and_low _ lines.rw_bit)]
  · simp [BitVec.and_or_distrib_right, hbl, hen]
  · simp [BitVec.and_or_distrib_right, hbl, hen, hrs]
  · exact hbl

/-- The backlight is set in every legal shape (R82, R87). -/
theorem busShape_backlight : b &&& p.blBit = p.blBit := by
  have lines := (controlBitsLegal_iff p).1 h
  have hen := isControlBit_disjoint lines.en_bit lines.bl_bit lines.en_ne_bl
  have hrs := isControlBit_disjoint lines.rs_bit lines.bl_bit lines.rs_ne_bl
  rcases hb with hb | hb | hb <;> rw [and_line_of_low hb (isControlBit_and_low _ lines.bl_bit)]
  · simp [BitVec.and_or_distrib_right, hen]
  · simp [BitVec.and_or_distrib_right, hen, hrs]
  · exact BitVec.and_self

/-- Of the legal shapes only the one of a low-phase byte has enable clear, and it has register-select clear (R87). -/
theorem busShape_registerSelect (hclear : b &&& p.enBit = 0x00#8) : b &&& p.rsBit = 0x00#8 := by
  have lines := (controlBitsLegal_iff p).1 h
  have hset {rs : Byte} (hb : b &&& 0x0F#8 = p.blBit ||| p.enBit ||| rs) : b &&& p.enBit ≠ 0x00#8 := by
    rw [and_line_of_low hb (isControlBit_and_low _ lines.en_bit), or_or_and_self]
    exact isControlBit_ne_zero lines.en_bit
  rcases hb with hb | hb | hb
  · exact absurd hclear (hset (hb.trans BitVec.or_zero.symm))
  · exact absurd hclear (hset hb)
  · rw [and_line_of_low hb (isControlBit_and_low _ lines.rs_bit)]
    exact isControlBit_disjoint lines.bl_bit lines.rs_bit lines.rs_ne_bl.symm

end

/-! ### The transmissions in the trace -/

/-- A transmission in the trace was left by a bus write that begins with its byte (R13). -/
theorem write_of_tx_mem_trace {s : State} {b : Byte} (hb : Event.tx b ∈ s.trace) :
    ∃ bus address buffer length, Call.writeBytes bus address buffer length ∈ s.log ∧ buffer.head? = some b := by
  obtain ⟨call, hcall, hevent⟩ := List.mem_filterMap.1 hb
  cases call with
  | initBus | assignPins | configureOutput | sleep | setPin => cases hevent
  | writeBytes bus address buffer length => exact ⟨bus, address, buffer, length, hcall, by simpa [Call.event] using hevent⟩

/-- A constructed block has sent bytes of a legal shape only (R87). -/
theorem busShape_of_tx_mem_trace {s : State} {c : Configuration} (h : s.constructed c) {b : Byte}
    (hb : Event.tx b ∈ s.trace) : busShape s.params b := by
  obtain ⟨bus, address, buffer, length, hcall, hhead⟩ := write_of_tx_mem_trace hb
  obtain ⟨-, -, -, -, -, hlog, -⟩ := h
  obtain ⟨-, -, -, b', rfl, hshape⟩ := hlog _ hcall
  obtain rfl := Option.some.inj hhead
  exact hshape

/-- A block before CONSTRUCT has sent nothing (R38, R260). -/
theorem trace_of_unconstructed {s : State} (h : s.unconstructed) : s.trace = [] := by
  obtain ⟨-, -, -, hlog⟩ := h
  simp only [State.trace, hlog, List.filterMap_nil]

/-- Settles O47: before CONSTRUCT nothing is sent, and after it only bytes of a legal shape. -/
theorem forbiddenBytesAreNeverSent : Obligations.ForbiddenBytesAreNeverSent := by
  intro s b h hb
  cases hc : s.config with
  | none =>
    rw [trace_of_unconstructed ((inv_of_no_config hc).1 h)] at hb
    cases hb
  | some c =>
    have hcon := (inv_of_config hc).1 h
    have hbits := constructed_controlBits hcon
    have hshape := busShape_of_tx_mem_trace hcon hb
    refine ⟨busShape_readWrite hbits hshape, ?_, busShape_registerSelect hbits hshape⟩
    rw [busShape_backlight hbits hshape]
    exact isControlBit_ne_zero ((controlBitsLegal_iff s.params).1 hbits).bl_bit

end Sys2Proof.Machine
end

section
/-! SUPPORT. How the reset-phase bytes travel (O20), how much INIT sends and how long it takes at least (O24), the first byte after
reset (O26), and what a second CONSTRUCT gets (O12). -/

namespace Sys2Proof.Machine

/-! ### The reset-phase bytes -/

theorem resetPhaseEvents_bytes {p : Params} (hswitch : p.initSingleNibble = false) (v : Byte) :
    resetPhaseEvents p v = sendByteEvents p v .command := by
  simp [resetPhaseEvents, hswitch]

theorem resetPhaseEvents_nibbles {p : Params} (hswitch : p.initSingleNibble = true) (v : Byte) :
    resetPhaseEvents p v = singleNibbleEvents p v :=
  if_pos hswitch

/-- A reset-phase byte makes the events the switch selects (R124). -/
theorem exec_sendResetPhase {s : State} {c : Configuration} {op : Instr} {results : List TxResult} {rest : List Item}
    (h : s.runningAs c op results rest) (hr : s.transportReturns) (hbits : controlBitsLegal s.params = true)
    {i : Instr} {v : Byte} (hp : i.port ≠ .hostOp) (hsend : prims s.params i = sendResetPhase s.params v) :
    exec i s = .next (s.afterLine c op results rest (resetPhaseEvents s.params v)) := by
  rw [exec_inner_returns h hr hp, hsend, primEvents_sendResetPhase hbits]

/-- Settles O20: both bytes take the one path of the reset phase, whose events the switch selects. -/
theorem resetPhaseBytesAreSent : Obligations.ResetPhaseBytesAreSent := by
  intro s c op results rest h hr hbits sent
  have hreset : exec .resetByte s = sent (resetPhaseEvents s.params s.params.resetByte) :=
    exec_sendResetPhase h hr hbits nofun rfl
  have hmode4 : exec .mode4Byte s = sent (resetPhaseEvents s.params s.params.mode4Byte) :=
    exec_sendResetPhase h hr hbits nofun rfl
  refine ⟨fun hswitch => ?_, fun hswitch => ?_⟩
  · simp only [resetPhaseEvents_bytes hswitch] at hreset hmode4
    exact ⟨hreset, hmode4⟩
  · simp only [resetPhaseEvents_nibbles hswitch] at hreset hmode4
    exact ⟨hreset, hmode4⟩

/-! ### The size and the duration of INIT's trace -/

/-- Is the event a delay? -/
def Event.isDelay : Event → Bool
  | .delay _ => true
  | .tx _ => false
  | .pin _ => false

section
variable (p : Params) (v : Byte)

@[simp] theorem txCount_sendByteEvents (mode : Mode) : txCount (sendByteEvents p v mode) = 4 := rfl

@[simp] theorem txCount_singleNibbleEvents : txCount (singleNibbleEvents p v) = 2 := rfl

@[simp] theorem countP_isDelay_sendByteEvents (mode : Mode) : (sendByteEvents p v mode).countP Event.isDelay = 4 := rfl

@[simp] theorem duration_sendByteEvents (mode : Mode) : duration (sendByteEvents p v mode) = 4 * p.tEn := by
  simp [sendByteEvents, Event.duration]
  omega

end

section
variable (p : Params)

/-- R133: nine bytes of four transmissions and the backlight-only byte, or four of the nine at half their length. -/
theorem txCount_initEvents : txCount (initEvents p) = if p.initSingleNibble then 29 else 37 := by
  cases hswitch : p.initSingleNibble with
  | false => simp [initEvents, resetPhaseEvents_bytes hswitch]
  | true => simp [initEvents, resetPhaseEvents_nibbles hswitch]

/-- R133: nine bytes of four delays and the four delays of INIT itself. -/
theorem countP_isDelay_initEvents (hswitch : p.initSingleNibble = false) :
    (initEvents p).countP Event.isDelay = 40 := by
  simp [initEvents, resetPhaseEvents_bytes hswitch, List.countP_cons, Event.isDelay]

/-- R133: the delays of nine bytes and the four delays of INIT itself. -/
theorem duration_initEvents (hswitch : p.initSingleNibble = false) :
    duration (initEvents p) = 36 * p.tEn + p.tInit1 + p.tInit2 + p.tInit3 + p.tClear := by
  simp [initEvents, resetPhaseEvents_bytes hswitch, Event.duration]
  omega

end

/-- Settles O24: INIT makes `initEvents`, which are counted and added up. -/
theorem initTraceSize : Obligations.InitTraceSize := by
  intro s c hready hr hbits
  have hcount := txCount_initEvents s.params
  refine ⟨_, initEvents s.params, initRunsTheWholeSequence s c hready hr hbits, trace_afterOperation s c _,
    fun hswitch => ⟨?_, countP_isDelay_initEvents _ hswitch, duration_initEvents _ hswitch⟩, fun hswitch => ?_⟩
  · simpa [hswitch] using hcount
  · simpa [hswitch] using hcount

/-! ### The first byte after reset -/

section
variable {p : Params}

/-- INIT begins with the high nibble of RESET_BYTE (R122, R156). -/
theorem head_txBytes_initEvents_bytes (hswitch : p.initSingleNibble = false) :
    (txBytes (initEvents p)).head? = some ((p.resetByte &&& 0xF0#8) ||| p.blBit ||| p.enBit) := by
  have hfirst : (txBytes (initEvents p)).head? = some ((p.resetByte &&& 0xF0#8) ||| p.blBit ||| p.enBit ||| 0x00#8) := by
    simp only [initEvents, resetPhaseEvents_bytes hswitch]
    rfl
  rwa [BitVec.or_zero] at hfirst

/-- With the switch on, INIT begins with the low nibble of RESET_BYTE (R122, R124). -/
theorem head_txBytes_initEvents_nibbles (hswitch : p.initSingleNibble = true) :
    (txBytes (initEvents p)).head? = some (((p.resetByte <<< 4) &&& 0xF0#8) ||| p.blBit ||| p.enBit) := by
  simp only [initEvents, resetPhaseEvents_nibbles hswitch]
  rfl

end

/-- CONSTRUCT adds the events of INIT to the trace, its set-up calls none (R13, R120, R122, R264). -/
theorem trace_of_construct {s t : State} {args : Option ConstructArgs} (hr : s.transportReturns)
    (ht : exec (.construct args) s = .next t) : t.trace = s.trace ++ initEvents s.params := by
  obtain ⟨hs, c, s₀, items, ha, -⟩ := exec_hostOp_next rfl ht
  obtain ⟨-, -, -, hsetUp⟩ := accepted_frame ha
  cases ha with
  | construct _ hc hlegal =>
    obtain ⟨-, hbits⟩ := Bool.and_eq_true_iff.1 hlegal
    have hinit := perform_initItems (s := s.setUp (constructArgs s.params args))
      (configurationOf s.params (constructArgs s.params args)) (.construct args) hr hbits
    obtain rfl := Host.Outcome.next.inj
      (ht.symm.trans ((exec_of_accepted hs (.construct args hc hlegal)).trans hinit))
    exact (trace_afterOperation _ _ _).trans (congrArg (· ++ _) hsetUp)

/-- Settles O26: before CONSTRUCT the trace is empty, so the first byte is the first one of INIT. -/
theorem firstByteAfterReset : Obligations.FirstByteAfterReset := by
  intro s args t hlog _ hr ht p
  have hempty : s.trace = [] := by simp only [State.trace, hlog, List.filterMap_nil]
  rw [trace_of_construct hr ht, hempty, List.nil_append]
  exact ⟨head_txBytes_initEvents_bytes, head_txBytes_initEvents_nibbles⟩

/-! ### A second CONSTRUCT -/

/-- Settles O12: an idle block that has a configuration refuses CONSTRUCT. -/
theorem secondConstructIsRefused : Obligations.SecondConstructIsRefused := by
  intro s c args ⟨hs, hc⟩
  simp only [exec, execConstruct, hs, hc]

end Sys2Proof.Machine
end

section
/-! SUPPORT. How many transmissions the lines of each operation make, and so how long its result list is (O35). -/

namespace Sys2Proof.Machine

/-! ### Transmissions of lines -/

/-- How many transmissions lines of pseudocode make. -/
def linesTxCount (p : Params) (items : List Item) : Nat := txCount (primEvents (items.flatMap (itemPrims p)))

section
variable (p : Params)

@[simp] theorem linesTxCount_nil : linesTxCount p [] = 0 := rfl

@[simp] theorem linesTxCount_append (a b : List Item) :
    linesTxCount p (a ++ b) = linesTxCount p a + linesTxCount p b := by
  simp only [linesTxCount, List.flatMap_append, primEvents_append, txCount_append]

@[simp] theorem linesTxCount_delay (t : Nat) : linesTxCount p [.prim (.delay t)] = 0 := rfl

/-- Groups of lines that make `n` transmissions each. -/
theorem linesTxCount_flatMap {α : Type} {groups : List α} {lines : α → List Item} {n : Nat}
    (h : ∀ a ∈ groups, linesTxCount p (lines a) = n) : linesTxCount p (groups.flatMap lines) = groups.length * n := by
  induction groups with
  | nil => simp
  | cons a groups ih =>
    obtain ⟨ha, hgroups⟩ := List.forall_mem_cons.1 h
    rw [List.flatMap_cons, linesTxCount_append, ha, ih hgroups, List.length_cons, Nat.succ_mul, Nat.add_comm]

/-! ### The lines of the operations -/

theorem linesTxCount_characterItems (codes : List Byte) : linesTxCount p (characterItems codes) = 4 * codes.length := by
  have hone (code : Byte) : linesTxCount p [.op (.character code)] = 4 := rfl
  rw [characterItems, List.map_eq_flatMap, linesTxCount_flatMap p fun code _ => hone code, Nat.mul_comm]

theorem linesTxCount_moveCursorItems (c : Configuration) (row col : Byte) :
    linesTxCount p (moveCursorItems c row col) = if row.toNat < c.rows.toNat ∧ col.toNat < c.cols.toNat then 4 else 0 := by
  split
  · rename_i hon
    rw [moveCursorItems_on hon]
    rfl
  · rename_i hoff
    rw [moveCursorItems_off hoff, linesTxCount_nil]

theorem linesTxCount_flashItems : linesTxCount p (flashItems p) = 0 := by
  rw [flashItems, ← List.flatMap_id, linesTxCount_flatMap p (n := 0), Nat.mul_zero]
  intro lines hlines
  rw [(List.mem_replicate.1 hlines).2]
  rfl

end

theorem linesTxCount_initItems {p : Params} (h : controlBitsLegal p = true) :
    linesTxCount p (initItems p) = if p.initSingleNibble then 29 else 37 := by
  rw [linesTxCount, primEvents_initItems h, txCount_initEvents]

/-- The buffer's contents are one row long (R171, R172). -/
theorem padded_length (p : Params) {cols : Byte} {text : List Byte} (h : text.length ≤ cols.toNat) :
    (padded p cols text).length = cols.toNat := by
  rw [padded, List.length_append, List.length_replicate, Nat.add_sub_cancel' h]

/-- Every window of a scroll is one row long (R173). -/
theorem window_length {cols : Byte} {text : List Byte} {i : Nat} (hlong : cols.toNat < text.length)
    (hi : i < windowCount cols text) : (window cols text i).length = cols.toNat := by
  rw [windowCount] at hi
  rw [window, List.length_take, List.length_drop]
  omega

/-- Every window of a scroll is a cursor move and one row of characters (R173, R178). -/
theorem linesTxCount_scrollItems (p : Params) {c : Configuration} {row : Byte} {text : List Byte}
    (hon : row.toNat < c.rows.toNat ∧ (0x00#8).toNat < c.cols.toNat) (hlong : c.cols.toNat < text.length) :
    linesTxCount p (scrollItems p c row text) = 4 * (text.length - c.cols.toNat + 1) * (c.cols.toNat + 1) := by
  have hwindow : ∀ i ∈ List.range (windowCount c.cols text),
      linesTxCount p (moveCursorItems c row 0x00#8 ++ characterItems (window c.cols text i) ++ [.prim (.delay p.tScroll)])
        = 4 * (c.cols.toNat + 1) := by
    intro i hi
    have hlength := window_length hlong (List.mem_range.1 hi)
    rw [linesTxCount_append, linesTxCount_append, linesTxCount_moveCursorItems, if_pos hon, linesTxCount_characterItems,
      hlength, linesTxCount_delay]
    omega
  rw [scrollItems, linesTxCount_flatMap p hwindow, List.length_range, windowCount, Nat.mul_left_comm, Nat.mul_assoc]

/-! ### Result lists -/

/-- A completed operation has one result for each transmission of its lines (R222). -/
theorem runItems_response {c : Configuration} {op : Instr} {items : List Item} {s : State} (hr : s.transportReturns) :
    ∃ results, (runItems c items (s.accept op items)).response = some (respond results)
      ∧ results.length = linesTxCount s.params items :=
  ⟨_, congrArg State.response (Host.Outcome.next.inj (perform_returns c op items s hr)), resultsOf_length _ _ _ _ hr⟩

theorem accepted_transportReturns {s s₀ : State} {i : Instr} {c : Configuration} {items : List Item}
    (ha : Accepted s i c s₀ items) (hr : s.transportReturns) : s₀.transportReturns := by
  obtain ⟨-, -, hreplies, -⟩ := accepted_frame ha
  rwa [State.transportReturns, hreplies]

/-- Settles O35, by cases on the accepted operation. -/
theorem resultListLengths : Obligations.ResultListLengths := by
  intro s t i c hp hr hinv ht hconfig
  obtain ⟨-, c', s₀, items, ha, rfl⟩ := exec_hostOp_next hp ht
  obtain ⟨-, hkept, -⟩ := runItems_frame c' items (s₀.accept i items)
  obtain rfl : c' = c :=
    Option.some.inj ((accepted_config ha).symm.trans (hkept.symm.trans hconfig))
  obtain ⟨hs₀, -⟩ := accepted_constructed hinv ha
  have hbits := constructed_controlBits hs₀
  obtain ⟨results, hresponse, hlength⟩ := runItems_response (c := c') (op := i) (items := items)
    (accepted_transportReturns ha hr)
  refine ⟨results, hresponse, hlength.trans ?_⟩
  cases ha with
  | construct | init => exact linesTxCount_initItems hbits
  | printFit _ text _ hfits =>
    exact (linesTxCount_characterItems ..).trans ((congrArg (4 * ·) (padded_length _ hfits)).trans (if_pos hfits).symm)
  | printScroll _ text _ hlong =>
    obtain ⟨-, -, hrow, hcol, -⟩ := hs₀
    exact (linesTxCount_scrollItems _ ⟨hrow, Nat.zero_lt_of_lt hcol⟩ hlong).trans (if_neg (Nat.not_le.2 hlong)).symm
  | moveCursor => exact linesTxCount_moveCursorItems ..
  | shiftLeft | shiftRight => rfl
  | flashLed => exact linesTxCount_flashItems _

end Sys2Proof.Machine
end

section
/-! SUPPORT. The laws of framing (O16) and of the low phase (O17), and what logical and transmitted bytes leave unchanged
(O38). -/

namespace Sys2Proof.Machine

/-! ### Framing -/

/-- Data in bits 7:4 leaves bits 3:0 to the control lines. -/
theorem extractLsb'_low_high_or (v x : Byte) : (v &&& 0xF0#8 ||| x).extractLsb' 0 4 = x.extractLsb' 0 4 := by
  have hdata : (v &&& 0xF0#8).extractLsb' 0 4 = 0x0#4 := by
    rw [BitVec.extractLsb'_and]
    exact BitVec.and_zero
  rw [BitVec.extractLsb'_or, hdata, BitVec.zero_or]

/-- The two nibble bytes of mode Command: data above backlight and enable (R140). -/
theorem frame_command (p : Params) (v : Byte) :
    frame p v .command = ((v &&& 0xF0#8) ||| (p.blBit ||| p.enBit), ((v <<< 4) &&& 0xF0#8) ||| (p.blBit ||| p.enBit)) := by
  simp only [frame, rsFlag, BitVec.or_zero, BitVec.or_assoc]

/-- Mode Character adds register-select to both nibble bytes, and nothing else (R140). -/
theorem frame_character (p : Params) (v : Byte) :
    frame p v .character = ((frame p v .command).1 ||| p.rsBit, (frame p v .command).2 ||| p.rsBit) := by
  simp only [frame, rsFlag, BitVec.or_zero]

/-- Settles O16: both nibble bytes are data bits above the same control lines. -/
theorem frameLaws : Obligations.FrameLaws := by
  intro p v hbits m l
  have hlines : (p.blBit ||| p.enBit) &&& 0x0F#8 = p.blBit ||| p.enBit := by
    simpa only [rsFlag, BitVec.or_zero] using highLines_and_low hbits .command
  have hm : m = (v &&& 0xF0#8) ||| (p.blBit ||| p.enBit) := congrArg Prod.fst (frame_command p v)
  have hl : l = ((v <<< 4) &&& 0xF0#8) ||| (p.blBit ||| p.enBit) := congrArg Prod.snd (frame_command p v)
  refine ⟨frame_character p v, ?_⟩
  rw [hm, hl]
  exact ⟨(extractLsb'_data_or hlines _).trans (extractLsb'_high v),
    (extractLsb'_data_or hlines _).trans (extractLsb'_high_shifted v),
    extractLsb'_low_high_or .., extractLsb'_low_high_or ..⟩

/-! ### The low phase -/

/-- The lines the low phase clears are low in it (R142). -/
theorem lowPhase_and_cleared (p : Params) (n : Byte) : lowPhase p n &&& (p.enBit ||| p.rsBit ||| p.rwBit) = 0x00#8 := by
  rw [lowPhase, BitVec.and_assoc, BitVec.and_comm (~~~_), BitVec.and_not_self]
  exact BitVec.and_zero

/-- Bits outside the lines the low phase clears stay as they were (R142). -/
theorem lowPhase_and_of_disjoint {p : Params} {x : Byte} (hx : (p.enBit ||| p.rsBit ||| p.rwBit) &&& x = 0x00#8)
    (n : Byte) : lowPhase p n &&& x = n &&& x := by
  have hkept : ~~~(p.enBit ||| p.rsBit ||| p.rwBit) &&& x = x := by
    ext i hi
    have hx_i := congrArg (·[i]) hx
    grind
  rw [lowPhase, BitVec.and_assoc, hkept]

section
variable {p : Params} (h : controlBitsLegal p = true)
include h

theorem cleared_and_high : (p.enBit ||| p.rsBit ||| p.rwBit) &&& 0xF0#8 = 0x00#8 := by
  have lines := (controlBitsLegal_iff p).1 h
  have hlow := or_and_low (or_and_low (isControlBit_and_low _ lines.en_bit) (isControlBit_and_low _ lines.rs_bit))
    (isControlBit_and_low _ lines.rw_bit)
  rw [← hlow, BitVec.and_assoc]
  exact BitVec.and_zero

theorem cleared_and_blBit : (p.enBit ||| p.rsBit ||| p.rwBit) &&& p.blBit = 0x00#8 := by
  have lines := (controlBitsLegal_iff p).1 h
  rw [BitVec.and_or_distrib_right, BitVec.and_or_distrib_right,
    isControlBit_disjoint lines.en_bit lines.bl_bit lines.en_ne_bl,
    isControlBit_disjoint lines.rs_bit lines.bl_bit lines.rs_ne_bl,
    isControlBit_disjoint lines.rw_bit lines.bl_bit lines.rw_ne_bl]
  rfl

end

/-- Settles O17: the cleared lines are neither data bits nor the backlight. -/
theorem lowPhaseOfANibbleByte : Obligations.LowPhaseOfANibbleByte := fun _ v mode hbits =>
  ⟨lowPhase_data_or hbits (high_and_low v) mode, lowPhase_data_or hbits (high_and_low (v <<< 4)) mode,
    fun n => ⟨lowPhase_and_cleared _ n, lowPhase_and_of_disjoint (cleared_and_high hbits) n,
      lowPhase_and_of_disjoint (cleared_and_blBit hbits) n⟩⟩

/-! ### What bytes leave unchanged -/

section
variable (c : Configuration) {qs : List Prim} (h : ∀ q ∈ qs, q.keepsCursor ∧ q.keepsLevel)
include h

/-- Bottom steps that write neither the cursor registers nor the LED level leave them, finished or waiting. -/
theorem runPrims_cursor_level_of_keeps (s : State) :
    let t := (runPrims c qs s).1
    (t.curRow, t.curCol) = (s.curRow, s.curCol) ∧ t.ledLevel = s.ledLevel := by
  refine (runPrims_induct c (fun t => (t.curRow, t.curCol) = (s.curRow, s.curCol) ∧ t.ledLevel = s.ledLevel) qs ?_ s
    ⟨rfl, rfl⟩).1
  rintro q hq u u' ⟨hcursor, hlevel⟩ hprim
  obtain ⟨hcursor', hlevel'⟩ := prim_cursor_level hprim
  obtain ⟨hkeepsCursor, hkeepsLevel⟩ := h q hq
  exact ⟨(hcursor'.trans (hkeepsCursor _)).trans hcursor, (hlevel'.trans (hkeepsLevel _)).trans hlevel⟩

theorem advance_cursor_level_of_keeps (rest : List Item) (s : State) :
    let t := advance c qs rest s
    t.curRow = s.curRow ∧ t.curCol = s.curCol ∧ t.ledLevel = s.ledLevel := by
  obtain ⟨hcursor, hlevel⟩ := runPrims_cursor_level_of_keeps c h s
  obtain ⟨hrow, hcol⟩ := Prod.mk.inj hcursor
  simp only [advance, State.arriveAt]
  split <;> simp [hrow, hcol, hlevel]

end

/-- Settles O38: the bottom steps of a byte write neither the cursor registers nor the LED level. -/
theorem innerBytesFrame : Obligations.InnerBytesFrame := by
  intro s t i hp ht
  obtain ⟨-, -, rest, c, -, -, rfl⟩ := perOperation_next ((exec_inner hp).symm.trans ht)
  obtain ⟨hparams, hconfig, hwbuf, hout, hrequest, hlog⟩ := advance_frame c (prims s.params i) rest s
  obtain ⟨hrow, hcol, hlevel⟩ := advance_cursor_level_of_keeps c (prims_keeps s.params i) rest s
  exact ⟨hparams, hconfig, hrow, hcol, hwbuf, hout, hlevel, hrequest, hlog⟩

end Sys2Proof.Machine
end

section
/-! SUPPORT. One transmission and the entry it leaves in the result list (O22), and the index that entry carries (O37). -/

namespace Sys2Proof.Machine

/-! ### The result of one transmission -/

theorem txResult_of_short {ret : Int} (h : ret < 1) (k : Nat) : txResult k ret = .busWriteIncomplete k := if_pos h

theorem txResult_of_written {ret : Int} (h : 1 ≤ ret) (k : Nat) : txResult k ret = .ok := if_neg (Int.not_lt.2 h)

/-- An error carries the index it was made for (R221). -/
theorem index_of_txResult {k j : Nat} {ret : Int} (h : txResult k ret = .busWriteIncomplete j) : j = k := by
  rcases lt_or_ge ret 1 with hshort | hwritten
  · rw [txResult_of_short hshort] at h
    exact (TxResult.busWriteIncomplete.inj h).symm
  · rw [txResult_of_written hwritten] at h
    cases h

/-! ### One transmission -/

theorem trace_called (s : State) {call : Call} {e : Event} (h : call.event = some e) :
    (s.called call).trace = s.trace ++ [e] := by
  simp [State.trace, h]

theorem nextReply_of_returns {s : State} {ret : Int} {replies : List Reply} (h : s.replies = .returns ret :: replies) :
    s.nextReply = .returns ret := by
  simp only [State.nextReply, h]

/-- The state after `Tx(b)` whose write returned `ret` (R150). -/
def State.afterTx (s : State) (c : Configuration) (b : Byte) (ret : Int) : State :=
  (s.dropReply.called (.writeBytes c.bus c.i2cAddr [b] 1)).record ret

@[simp] theorem afterTx_replies (s : State) (c : Configuration) (b : Byte) (ret : Int) :
    (s.afterTx c b ret).replies = s.replies.tail := by
  simp [State.afterTx]

/-- The event is made whatever the transport returned (R223). -/
theorem afterTx_trace (s : State) (c : Configuration) (b : Byte) (ret : Int) :
    (s.afterTx c b ret).trace = s.trace ++ [.tx b] := by
  have hlog : (s.afterTx c b ret).log = (s.called (.writeBytes c.bus c.i2cAddr [b] 1)).log := by simp [State.afterTx]
  exact (congrArg (List.filterMap Call.event) hlog).trans (trace_called s rfl)

/-- The result has the transmission's index in its operation, which stays where it is (R221, R223). -/
theorem afterTx_seq {s : State} {op : Instr} {results : List TxResult} {rest : List Item}
    (hs : s.seq = .busy op results rest) (c : Configuration) (b : Byte) (ret : Int) :
    (s.afterTx c b ret).seq = .busy op (results ++ [txResult results.length ret]) rest :=
  State.record_seq_busy _ _ _ _ _ (by simpa using hs)

/-- One transmission as a line of the operation in progress. -/
theorem advance_tx {s : State} {ret : Int} (h : s.nextReply = .returns ret) (c : Configuration) (b : Byte)
    (rest : List Item) : advance c [.tx b] rest s = (s.afterTx c b ret).arriveAt rest := by
  simp only [advance, runPrims, prim, tx, h]
  rfl

/-- Settles O22: BUS_BACKLIGHT_ONLY is one transmission, and the operation then stands where it stood. -/
theorem transmissionRecordsItsResult : Obligations.TransmissionRecordsItsResult := by
  intro s c op results it rest ret replies h hreplies
  have ⟨hs, _⟩ := h
  have hrun : exec .busBacklightOnly s = .next ((s.afterTx c s.params.blBit ret).setRest (it :: rest)) :=
    (perOperation_runningAs h .busBacklightOnly).trans
      (congrArg Host.Outcome.next (advance_tx (nextReply_of_returns hreplies) c s.params.blBit (it :: rest)))
  have hseq := State.setRest_seq_busy _ _ _ _ (it :: rest) (afterTx_seq hs c s.params.blBit ret)
  refine ⟨_, hrun, ?_, ?_, fun hshort => ?_, fun hwritten => ?_⟩
  · rw [State.trace, State.setRest_log]
    exact afterTx_trace s c s.params.blBit ret
  · rw [State.setRest_replies, afterTx_replies, hreplies, List.tail_cons]
  · rw [hseq, txResult_of_short hshort]
  · rw [hseq, txResult_of_written hwritten]

/-! ### The entries of a result list -/

/-- The coming results end at a write that does not return, or begin with the result check of a return value (R150). -/
theorem resultsOf_succ (rs : List Reply) (fresh k n : Nat) :
    resultsOf rs fresh k (n + 1) = [] ∨
      ∃ ret rs' fresh', resultsOf rs fresh k (n + 1) = txResult k ret :: resultsOf rs' fresh' (k + 1) n := by
  cases rs with
  | nil => exact .inr ⟨_, _, _, rfl⟩
  | cons reply rs =>
    cases reply with
    | returns ret => exact .inr ⟨_, _, _, rfl⟩
    | never => exact .inl rfl

/-- Entry `m` of the coming results is the result check with its own index (R150, R221). -/
theorem entry_of_resultsOf {rs : List Reply} {fresh k n m : Nat} {entry : TxResult}
    (h : (resultsOf rs fresh k n)[m]? = some entry) : ∃ ret, entry = txResult (k + m) ret := by
  induction n generalizing rs fresh k m with
  | zero => simp at h
  | succ n ih =>
    rcases resultsOf_succ rs fresh k n with hnone | ⟨ret, rs', fresh', hcons⟩
    · simp [hnone] at h
    · rw [hcons] at h
      cases m with
      | zero => exact ⟨ret, (Option.some.inj h).symm⟩
      | succ m =>
        rw [← Nat.succ_add_eq_add_succ]
        exact ih h

/-- The results a completed operation answers with, when every bus write returns (R222). -/
theorem runItems_results {s : State} (hr : s.transportReturns) (c : Configuration) (op : Instr) (items : List Item) :
    (runItems c items (s.accept op items)).response =
      some (respond (resultsOf s.replies s.fresh 0 (linesTxCount s.params items))) :=
  congrArg State.response (Host.Outcome.next.inj (perform_returns c op items s hr))

/-- Settles O37: the results of an operation are those of its transmissions, counted from 0. -/
theorem errorNamesItsTransmission : Obligations.ErrorNamesItsTransmission := by
  intro s t i r k j hp hr ht hresponse hentry
  obtain ⟨-, c, s₀, items, ha, rfl⟩ := exec_hostOp_next hp ht
  rw [runItems_results (accepted_transportReturns ha hr)] at hresponse
  obtain rfl := Option.some.inj hresponse
  obtain ⟨ret, hret⟩ := entry_of_resultsOf hentry
  rw [Nat.zero_add] at hret
  exact index_of_txResult hret.symm

end Sys2Proof.Machine
end

section
/-! SUPPORT. PRINT when every bus write returns: a text that fits (O27), a text that scrolls (O28), and how much either sends and
how long it takes at least (O29). -/

namespace Sys2Proof.Machine

/-! ### A text that fits -/

/-- An operation whose lines write neither the cursor registers nor the LED level leaves what its events say. -/
theorem perform_of_keeps {items : List Item} (hcursor : ∀ it ∈ items, it.keepsCursor)
    (hlevel : ∀ it ∈ items, it.keepsLevel) (c : Configuration) (op : Instr) {s : State} (hr : s.transportReturns) :
    perform c op items s = .next (s.afterOperation c (primEvents (items.flatMap (itemPrims s.params)))) := by
  rw [perform_returns c op items s hr, foldl_cursor_of_keeps (flatMap_keepsCursor hcursor _),
    foldl_level_of_keeps (flatMap_keepsLevel hlevel _)]
  rfl

theorem padded_getElem?_text (p : Params) (cols : Byte) {text : List Byte} {k : Nat} (hk : k < text.length) :
    (padded p cols text)[k]? = text[k]? :=
  List.getElem?_append_left hk

theorem padded_getElem?_space (p : Params) {cols : Byte} {text : List Byte} {k : Nat} (hk : text.length ≤ k)
    (hcols : k < cols.toNat) : (padded p cols text)[k]? = some p.spaceCode := by
  rw [padded, List.getElem?_append_right hk, List.getElem?_replicate_of_lt (by omega)]

theorem padded_of_full (p : Params) {cols : Byte} {text : List Byte} (h : text.length = cols.toNat) :
    padded p cols text = text := by
  rw [padded, h, Nat.sub_self, List.replicate_zero, List.append_nil]

/-- The padded line is the buffer, and its characters are all that is sent (R171, R172, R174). -/
theorem exec_print_fits {s : State} {c : Configuration} {text : List Byte} (h : s.readyAs c) (hr : s.transportReturns)
    (hbits : controlBitsLegal s.params = true) (hfits : text.length ≤ c.cols.toNat)
    (hm : text.length ≤ lenMax s.params c.cols) :
    exec (.print text) s = .next { s.afterOperation c (characterEvents s.params (padded s.params c.cols text)) with
      wbuf := padded s.params c.cols text } := by
  obtain ⟨hs, hc⟩ := h
  have ha := Accepted.printFit c text hc hfits hm
  have hlines := perform_of_keeps (s := s.setBuffer (padded s.params c.cols text)) (characterItems_keepsCursor _)
    (accepted_keepsLevel ha nofun) c (.print text) hr
  rw [exec_of_accepted hs ha, hlines, ← primEvents_characterItems hbits]
  rfl

/-- Settles O27: the line is the text, padded with spaces. -/
theorem printThatFits : Obligations.PrintThatFits := by
  intro s c text h hr hbits hfits hm
  exact ⟨padded s.params c.cols text, exec_print_fits h hr hbits hfits hm, padded_length _ hfits,
    fun _ => padded_getElem?_text _ _, fun _ => padded_getElem?_space _, padded_of_full _⟩

/-! ### A text that scrolls -/

/-- Groups of lines make the events of each group in turn. -/
theorem primEvents_flatMap {α : Type} {p : Params} {lines : α → List Item} {events : α → List Event}
    (h : ∀ a, primEvents ((lines a).flatMap (itemPrims p)) = events a) (groups : List α) :
    primEvents ((groups.flatMap lines).flatMap (itemPrims p)) = groups.flatMap events := by
  rw [List.flatMap_assoc, primEvents, List.filterMap_flatMap]
  exact congrArg (groups.flatMap ·) (funext h)

/-- A cursor move on the display is one framed Set-DDRAM-Address command (R97, R190). -/
theorem primEvents_moveCursorItems {p : Params} (hbits : controlBitsLegal p = true) {c : Configuration} {row col : Byte}
    (hon : row.toNat < c.rows.toNat ∧ col.toNat < c.cols.toNat) :
    primEvents ((moveCursorItems c row col).flatMap (itemPrims p))
      = cursorEvents p ((ddramAddress c.base row col).setWidth 8) := by
  rw [moveCursorItems_on hon, List.flatMap_append, primEvents_append, cursorEvents, ← primEvents_sendByte hbits]
  exact List.append_nil _

/-- The address of column 0 is the row's base (R62). -/
theorem ddramAddress_home {base : RowBases} {row : Byte} (hrow : row.toNat < 4) :
    (ddramAddress base row 0x00#8).setWidth 8 = BitVec.ofNat 8 ((bases base).getD row.toNat 0) := by
  rw [bases_getD base hrow, BitVec.ofNat_toNat, ddramAddress]
  exact congrArg (BitVec.setWidth 8) (BitVec.add_zero _)

/-- A scroll on a legal row makes the events of R173 and R175. -/
theorem primEvents_scrollItems {p : Params} (hbits : controlBitsLegal p = true) {c : Configuration} {row : Byte}
    (hon : row.toNat < c.rows.toNat ∧ (0x00#8).toNat < c.cols.toNat) (hrow : row.toNat < 4) (text : List Byte) :
    primEvents ((scrollItems p c row text).flatMap (itemPrims p))
      = scrollEvents p (BitVec.ofNat 8 ((bases c.base).getD row.toNat 0)) c.cols.toNat text := by
  refine primEvents_flatMap (fun i => ?_) _
  rw [List.flatMap_append, List.flatMap_append, primEvents_append, primEvents_append,
    primEvents_moveCursorItems hbits hon, primEvents_characterItems hbits, ddramAddress_home hrow]
  rfl

/-- The current row of a legal display has a column 0 and a base. -/
theorem home_of_geometryLegal {c : Configuration} {address row : Byte}
    (h : geometryLegal c.base c.rows c.cols address = true) (hrow : row.toNat < c.rows.toNat) :
    (row.toNat < c.rows.toNat ∧ (0x00#8).toNat < c.cols.toNat) ∧ row.toNat < 4 := by
  obtain ⟨-, hrows, hcols, -, -⟩ := (geometryLegal_iff ..).1 h
  exact ⟨⟨hrow, hcols⟩, Nat.lt_of_lt_of_le hrow hrows⟩

/-- Settles O28: the lines of the scroll make the events of R173 and R175 and write column 0 of the current row. -/
theorem printThatScrolls : Obligations.PrintThatScrolls := by
  intro s c text ⟨hs, hc⟩ hr hbits hlegal hrow hlong hm
  obtain ⟨hon, hrow4⟩ := home_of_geometryLegal hlegal hrow
  have ha := Accepted.printScroll c text hc hlong hm
  have hcursor := foldl_cursor_home (scrollItems_writes s.params c s.curRow text) s.curCol
  rw [if_pos (scrollItems_home _ _ _ _ ((onDisplay_iff ..).2 hon))] at hcursor
  have hlevel := foldl_level_of_keeps (flatMap_keepsLevel (accepted_keepsLevel ha nofun) s.params) s.ledLevel
  rw [exec_of_accepted hs ha, perform_returns c _ _ s hr, hcursor, hlevel, primEvents_scrollItems hbits hon hrow4]
  rfl

/-! ### The size and the duration of PRINT's trace -/

/-- Groups of events that take `n` microseconds each. -/
theorem duration_flatMap {α : Type} {groups : List α} {events : α → List Event} {n : Nat}
    (h : ∀ a ∈ groups, duration (events a) = n) : duration (groups.flatMap events) = groups.length * n := by
  induction groups with
  | nil => simp
  | cons a groups ih =>
    obtain ⟨ha, hgroups⟩ := List.forall_mem_cons.1 h
    rw [List.flatMap_cons, duration_append, ha, ih hgroups, List.length_cons, Nat.succ_mul, Nat.add_comm]

section
variable (p : Params)

theorem duration_characterEvents (codes : List Byte) :
    duration (characterEvents p codes) = codes.length * (4 * p.tEn) :=
  duration_flatMap fun code _ => duration_sendByteEvents p code .character

/-- Every window takes the time of a cursor move, of one row of characters and of the pause (R178). -/
theorem duration_scrollEvents (base : Byte) {cols : Byte} {text : List Byte} (hlong : cols.toNat < text.length) :
    duration (scrollEvents p base cols.toNat text)
      = (text.length - cols.toNat + 1) * (p.tScroll + (cols.toNat + 1) * 4 * p.tEn) := by
  have hwindow : ∀ i ∈ List.range (text.length - cols.toNat + 1),
      duration (cursorEvents p base ++ characterEvents p (window cols text i) ++ [.delay p.tScroll])
        = p.tScroll + (cols.toNat + 1) * 4 * p.tEn := by
    intro i hi
    have hlength := window_length hlong (List.mem_range.1 hi)
    simp only [duration_append, cursorEvents, duration_sendByteEvents, duration_characterEvents, hlength, duration_cons,
      Event.duration, duration_nil]
    ring
  exact (duration_flatMap hwindow).trans (congrArg (· * _) List.length_range)

end

section
variable {p : Params} (hbits : controlBitsLegal p = true)
include hbits

theorem txCount_characterEvents (codes : List Byte) : txCount (characterEvents p codes) = 4 * codes.length := by
  rw [← primEvents_characterItems hbits]
  exact linesTxCount_characterItems p codes

theorem txCount_scrollEvents {c : Configuration} {row : Byte} {text : List Byte}
    (hon : row.toNat < c.rows.toNat ∧ (0x00#8).toNat < c.cols.toNat) (hrow : row.toNat < 4)
    (hlong : c.cols.toNat < text.length) :
    txCount (scrollEvents p (BitVec.ofNat 8 ((bases c.base).getD row.toNat 0)) c.cols.toNat text)
      = 4 * (text.length - c.cols.toNat + 1) * (c.cols.toNat + 1) := by
  rw [← primEvents_scrollItems hbits hon hrow]
  exact linesTxCount_scrollItems p hon hlong

end

/-- Settles O29: the events of either branch are counted and added up. -/
theorem printTraceSize : Obligations.PrintTraceSize := by
  intro s c text h hr hbits hlegal hrow hm w n
  rcases Nat.lt_or_ge w text.length with hlong | hfits
  · obtain ⟨hon, hrow4⟩ := home_of_geometryLegal hlegal hrow
    exact ⟨_, _, printThatScrolls s c text h hr hbits hlegal hrow hlong hm, trace_afterOperation s c _,
      fun hfits => absurd hlong (Nat.not_lt.2 hfits),
      fun _ => ⟨txCount_scrollEvents hbits hon hrow4 hlong, duration_scrollEvents _ _ hlong⟩⟩
  · have hcount := txCount_characterEvents hbits (padded s.params c.cols text)
    have htime := duration_characterEvents s.params (padded s.params c.cols text)
    rw [padded_length _ hfits] at hcount htime
    refine ⟨_, _, exec_print_fits h hr hbits hfits hm, trace_afterOperation s c _, fun _ => ⟨hcount, ?_⟩,
      fun hlong => absurd hlong (Nat.not_lt.2 hfits)⟩
    rw [htime, Nat.mul_left_comm, Nat.mul_assoc]

end Sys2Proof.Machine
end

section
/-! SUPPORT. MOVE_CURSOR when every bus write returns (O30). -/

namespace Sys2Proof.Machine

/-- The address byte of a pair on a legal display is the sum of the row's base and the column (R62, R193). -/
theorem ddramAddress_byte {c : Configuration} {address row col : Byte}
    (hlegal : geometryLegal c.base c.rows c.cols address = true)
    (hon : row.toNat < c.rows.toNat ∧ col.toNat < c.cols.toNat) :
    (ddramAddress c.base row col).setWidth 8 = BitVec.ofNat 8 ((bases c.base).getD row.toNat 0 + col.toNat) := by
  obtain ⟨hrow, hcol⟩ := hon
  obtain ⟨hsum, -⟩ := addressNeverWraps _ _ _ _ _ _ hlegal hrow hcol
  rw [← hsum, BitVec.ofNat_toNat]

/-- A move on the display sends its command, then the registers hold the pair (R190). -/
theorem perform_moveCursorItems_on {s : State} {c : Configuration} {row col : Byte} (op : Instr)
    (hr : s.transportReturns) (hbits : controlBitsLegal s.params = true)
    (hon : row.toNat < c.rows.toNat ∧ col.toNat < c.cols.toNat) :
    perform c op (moveCursorItems c row col) s =
      .next { s.afterOperation c (cursorEvents s.params ((ddramAddress c.base row col).setWidth 8)) with
        curRow := row, curCol := col } := by
  rw [perform_returns c op _ s hr, primEvents_moveCursorItems hbits hon, moveCursorItems_on hon]
  rfl

/-- A move off the display takes the request and answers the empty result list (R191). -/
theorem perform_moveCursorItems_off (s : State) {c : Configuration} {row col : Byte} (op : Instr)
    (hoff : ¬ (row.toNat < c.rows.toNat ∧ col.toNat < c.cols.toNat)) :
    perform c op (moveCursorItems c row col) s =
      .next { s with seq := .idle, request := none, response := some ⟨[], 0⟩ } := by
  rw [moveCursorItems_off hoff]
  rfl

/-- Settles O30: the pair is on the display exactly when neither bound is reached. -/
theorem moveCursorMoves : Obligations.MoveCursorMoves := by
  intro s c row col ⟨hs, hc⟩ hr hbits hlegal
  rw [exec_of_accepted hs (.moveCursor c row col hc)]
  split
  · next hoff => exact perform_moveCursorItems_off s _ (by omega)
  · next hin =>
    have hon : row.toNat < c.rows.toNat ∧ col.toNat < c.cols.toNat := by omega
    rw [perform_moveCursorItems_on _ hr hbits hon, ddramAddress_byte hlegal hon]

end Sys2Proof.Machine
end

section
/-! SUPPORT. SHIFT_LEFT and SHIFT_RIGHT when every bus write returns (O32). -/

namespace Sys2Proof.Machine

/-- An operation whose one line sends the command `v` makes the events of that command and leaves the driver's registers, buffer
and LED level as they were. -/
theorem perform_singleCommand {s : State} (hr : s.transportReturns) (hbits : controlBitsLegal s.params = true)
    {line : Instr} {v : Byte} (hline : prims s.params line = sendByte s.params v .command) (c : Configuration) (op : Instr) :
    perform c op [.op line] s = .next (s.afterOperation c (sendByteEvents s.params v .command)) := by
  have hsent : [Item.op line].flatMap (itemPrims s.params) = sendByte s.params v .command :=
    (List.flatMap_singleton ..).trans hline
  rw [perform_of_keeps (List.forall_mem_singleton.2 (op_keepsCursor line))
    (List.forall_mem_singleton.2 (op_keepsLevel line)) c op hr, hsent, primEvents_sendByte hbits]

/-- Settles O32: either shift has one line, its own command (R200, R201). -/
theorem shiftsAreOneCommand : Obligations.ShiftsAreOneCommand := by
  intro s c ⟨hs, hc⟩ hr hbits
  constructor
  · rw [exec_of_accepted hs (.shiftLeft c hc)]
    exact perform_singleCommand hr hbits rfl c .shiftLeft
  · rw [exec_of_accepted hs (.shiftRight c hc)]
    exact perform_singleCommand hr hbits rfl c .shiftRight

end Sys2Proof.Machine
end

section
/-! SUPPORT. FLASH_LED (O33): it makes no transmission, so nothing here asks the transport to return. -/

namespace Sys2Proof.Machine

/-! ### One on/off pair -/

/-- The lines of one on/off pair (R210). -/
def blinkItems (t : Nat) : List Item :=
  [.prim (.setPin true), .prim (.delay t), .prim (.setPin false), .prim (.delay t)]

/-- The events of one on/off pair (R210). -/
def blinkEvents (t : Nat) : List Event := [.pin true, .delay t, .pin false, .delay t]

theorem flashItems_eq (p : Params) : flashItems p = (List.replicate p.nLed (blinkItems p.tLed)).flatten := rfl

theorem flashEvents_eq (p : Params) : flashEvents p = (List.replicate p.nLed (blinkEvents p.tLed)).flatten := rfl

/-- Events one after the other: the replies are used up in order, then the free values. -/
theorem afterEvents_append (s : State) (c : Configuration) (a b : List Event) :
    (s.afterEvents c a).afterEvents c b = s.afterEvents c (a ++ b) := by
  simp only [State.afterEvents, List.map_append, List.append_assoc, List.drop_drop, txCount_append, List.length_drop,
    State.mk.injEq, true_and]
  omega

/-- A pair runs to its end whatever the transport does, and leaves the pin at 0. -/
theorem runItems_blinkItems (c : Configuration) (t : Nat) (items : List Item) (s : State) :
    runItems c (blinkItems t ++ items) s = runItems c items ((s.afterEvents c (blinkEvents t)).setLevel false) := by
  have hpair : (s.afterEvents c (blinkEvents t)).setLevel false =
      ((((((s.called (.setPin c.ledPin true)).setLevel true).called (.sleep t)).called
        (.setPin c.ledPin false)).setLevel false).called (.sleep t)) := by
    simp [State.afterEvents, State.called, State.setLevel, blinkEvents, Event.call]
  rw [hpair]
  rfl

/-! ### All pairs -/

/-- One pair or more, by induction on their number: each pair begins where the one before it left the pin. -/
theorem runItems_blinks (c : Configuration) (t : Nat) {n : Nat} (hn : 1 ≤ n) (s : State) :
    runItems c (List.replicate n (blinkItems t)).flatten s =
      ((s.afterEvents c (List.replicate n (blinkEvents t)).flatten).setLevel false).complete := by
  induction n, hn using Nat.le_induction generalizing s with
  | base => exact runItems_blinkItems c t [] s
  | succ n _ ih =>
    simp only [List.replicate_succ, List.flatten_cons, runItems_blinkItems, ih, ← afterEvents_append]
    rfl

/-! ### What the events of FLASH_LED add up to -/

theorem txCount_flashEvents (p : Params) : txCount (flashEvents p) = 0 := by
  simp [flashEvents, txCount, txBytes, List.filterMap_flatten, Event.byte]

theorem length_flashEvents (p : Params) : (flashEvents p).length = 4 * p.nLed := by
  simp [flashEvents, Nat.mul_comm]

theorem duration_flashEvents (p : Params) : duration (flashEvents p) = 2 * p.nLed * p.tLed := by
  have hpair : ∀ events ∈ List.replicate p.nLed (blinkEvents p.tLed), duration events = 2 * p.tLed := by
    intro events hevents
    simp only [List.eq_of_mem_replicate hevents, blinkEvents, duration_cons, Event.duration, duration_nil]
    omega
  rw [flashEvents_eq, ← List.flatMap_id', duration_flatMap hpair, List.length_replicate, Nat.mul_left_comm, Nat.mul_assoc]

/-- Settles O33: FLASH_LED runs `N_LED` pairs, and the last of them leaves the pin at 0. -/
theorem flashLedBlinks : Obligations.FlashLedBlinks := by
  intro s c ⟨hs, hc⟩ hpairs
  refine ⟨?_, txCount_flashEvents _, length_flashEvents _, duration_flashEvents _⟩
  rw [exec_of_accepted hs (.flashLed c hc), perform, flashItems_eq, runItems_blinks c _ hpairs, ← flashEvents_eq,
    State.afterOperation, txCount_flashEvents, resultsOf_zero]
  rfl

end Sys2Proof.Machine
end

section
/-! SUPPORT. Errors: a request while BUSY is refused (O9), an operation whose writes return ends idle and answers with its error
count (O36), and what the transport returns decides the results alone (O34). -/

namespace Sys2Proof.Machine

/-! ### Requests while BUSY -/

section
variable {s : State} {op : Instr} {results : List TxResult} {rest : List Item} (hs : s.seq = .busy op results rest)
include hs

theorem whenReady_busy (k : Configuration → Result) : s.whenReady k = .refused .requestWhileBusy := by
  simp only [State.whenReady, hs]

theorem execConstruct_busy (args : Option ConstructArgs) : execConstruct args s = .refused .requestWhileBusy := by
  simp only [execConstruct, hs]

end

/-- Settles O9: every host operation but selector 7 asks first whether the block is idle. -/
theorem busyBlockRefusesRequests : Obligations.BusyBlockRefusesRequests := by
  intro s i op results rest hp hreserved hs
  cases i with
  | construct args => exact execConstruct_busy hs args
  | reserved7 => exact absurd rfl hreserved
  | init | print | moveCursor | shiftLeft | shiftRight | flashLed => exact whenReady_busy hs _
  | resetByte | mode4Byte | cmdFunctionSet | cmdEntryMode | cmdClear | cmdHome | cmdDisplayOn | cmdSetDdram
  | cmdShiftLeft | cmdShiftRight | character | busHighCommand | busHighCharacter | busLowPhase | busBacklightOnly =>
    cases hp

/-! ### The end of an operation -/

/-- Everything but `Ok` in a result list is a `BusWriteIncomplete` (R221). -/
theorem errCount_eq_countP_ne_ok (results : List TxResult) : errCount results = results.countP (fun r => r != .ok) := by
  have herror (r : TxResult) : r.isError = (r != .ok) := by cases r <;> rfl
  exact congrArg (List.countP · results) (funext herror)

theorem runItems_seq_idle {s : State} (hr : s.transportReturns) (c : Configuration) (op : Instr) (items : List Item) :
    (runItems c items (s.accept op items)).seq = .idle :=
  congrArg State.seq (Host.Outcome.next.inj (perform_returns c op items s hr))

/-- Settles O36: acceptance takes the request, and the last line completes the operation. -/
theorem operationEndsIdleWithItsCount : Obligations.OperationEndsIdleWithItsCount := by
  intro s t i hp hr ht
  obtain ⟨-, c, s₀, items, ha, rfl⟩ := exec_hostOp_next hp ht
  have hr₀ := accepted_transportReturns ha hr
  obtain ⟨-, -, -, -, hrequest, -⟩ := runItems_frame c items (s₀.accept i items)
  obtain ⟨results, hresponse, -⟩ := runItems_response (c := c) (op := i) (items := items) hr₀
  refine ⟨runItems_seq_idle hr₀ c i items, hrequest, results, ?_⟩
  rw [hresponse, respond, errCount_eq_countP_ne_ok]

/-! ### Two transports -/

/-- The same block with another transport: only what its coming writes return differs (R13). -/
def State.withReplies (s : State) (replies : List Reply) : State := { s with replies := replies }

/-- The same calls, position and state; the results, and how far the input is read, may differ (R223). -/
def State.sameButResults (t' t : State) : Prop :=
  t'.log = t.log ∧ t'.params = t.params ∧ t'.config = t.config
    ∧ t'.curRow = t.curRow ∧ t'.curCol = t.curCol ∧ t'.wbuf = t.wbuf
    ∧ t'.ledOutput = t.ledOutput ∧ t'.ledLevel = t.ledLevel ∧ t'.request = t.request
    ∧ t'.seq.pending = t.seq.pending ∧ (t'.seq = .idle ↔ t.seq = .idle)
    ∧ t'.response.map (fun r => r.results.length) = t.response.map (fun r => r.results.length)

/-- What is accepted, and with which lines, does not depend on the coming replies (R65). -/
theorem accepted_withReplies {s s₀ : State} {i : Instr} {c : Configuration} {items : List Item}
    (ha : Accepted s i c s₀ items) (replies : List Reply) :
    Accepted (s.withReplies replies) i c (s₀.withReplies replies) items := by
  cases ha with
  | construct args hc hl => exact .construct args hc hl
  | init _ hc => exact .init c hc
  | printFit _ text hc hl hm => exact .printFit c text hc hl hm
  | printScroll _ text hc hl hm => exact .printScroll c text hc hl hm
  | moveCursor _ row col hc => exact .moveCursor c row col hc
  | shiftLeft _ hc => exact .shiftLeft c hc
  | shiftRight _ hc => exact .shiftRight c hc
  | flashLed _ hc => exact .flashLed c hc

section
variable {s : State} {replies : List Reply} (hr : s.transportReturns) (hr' : Reply.never ∉ replies)
include hr hr'

/-- Both transports leave one result for each transmission. -/
theorem resultsOf_length_withReplies (fresh k n : Nat) :
    (resultsOf replies fresh k n).length = (resultsOf s.replies fresh k n).length :=
  (resultsOf_length replies fresh k n hr').trans (resultsOf_length s.replies fresh k n hr).symm

/-- An accepted operation makes the same events whatever its writes return. -/
theorem runItems_sameButResults (c : Configuration) (op : Instr) (items : List Item) :
    (runItems c items ((s.withReplies replies).accept op items)).sameButResults
      (runItems c items (s.accept op items)) := by
  have hrun := Host.Outcome.next.inj (perform_returns c op items s hr)
  have hrun' := Host.Outcome.next.inj (perform_returns c op items (s.withReplies replies) hr')
  rw [hrun, hrun']
  exact ⟨rfl, rfl, rfl, rfl, rfl, rfl, rfl, rfl, rfl, rfl, .rfl,
    congrArg some (resultsOf_length_withReplies hr hr' s.fresh 0 _)⟩

/-- One line of the operation in progress makes the same events whatever its writes return. -/
theorem afterLine_sameButResults (c : Configuration) (op : Instr) (results : List TxResult) (rest : List Item)
    (events : List Event) :
    ((s.withReplies replies).afterLine c op results rest events).sameButResults
      (s.afterLine c op results rest events) := by
  have hlength := resultsOf_length_withReplies hr hr' s.fresh results.length (txCount events)
  cases rest with
  | nil =>
    refine ⟨rfl, rfl, rfl, rfl, rfl, rfl, rfl, rfl, rfl, rfl, .rfl, congrArg some ?_⟩
    exact (List.length_append ..).trans ((congrArg (results.length + ·) hlength).trans (List.length_append ..).symm)
  | cons it its => exact ⟨rfl, rfl, rfl, rfl, rfl, rfl, rfl, rfl, rfl, rfl, iff_of_false nofun nofun, rfl⟩

end

/-- Settles O34: the same lines are accepted, and they make the same events. -/
theorem errorsNeverTransferControl : Obligations.ErrorsNeverTransferControl := by
  intro s t i replies hr hr' ht
  by_cases hp : i.port = .hostOp
  · obtain ⟨hidle, c, s₀, items, ha, rfl⟩ := exec_hostOp_next hp ht
    exact ⟨_, exec_of_accepted hidle (accepted_withReplies ha replies),
      runItems_sameButResults (accepted_transportReturns ha hr) hr' c i items⟩
  · obtain ⟨op, results, rest, c, hbusy, hc, -⟩ := perOperation_next ((exec_inner hp).symm.trans ht)
    obtain rfl := Host.Outcome.next.inj (ht.symm.trans (exec_inner_returns ⟨hbusy, hc⟩ hr hp))
    exact ⟨_, exec_inner_returns (s := s.withReplies replies) ⟨hbusy, hc⟩ hr' hp,
      afterLine_sameButResults hr hr' c op results rest _⟩

end Sys2Proof.Machine
end
